-- ==== Sys2Proof/Word.lean ====
section
/-! DEFINITION. The bit-vector types of SDES-CORE: 00_scope.md R6 fixes their widths. -/

namespace Sys2Proof

/-- A host register, window entry or command word (00_scope.md R7: "the host register width is 32 bits"). -/
abbrev Word := BitVec 32

/-- A block, a subkey or a code unit: 8 bits (R6). Also the unit RAM is held in. -/
abbrev Byte := BitVec 8

/-- A master key: 10 bits (R6). -/
abbrev MasterKey := BitVec 10

/-- A half-block or an S-box segment: 4 bits (R6). -/
abbrev Nibble := BitVec 4

/-- A set of keys of the key space 0..1023, one bit a key (R6; 10_state.md R41, R44, R45). -/
abbrev KeySet := BitVec 1024

end Sys2Proof
end

