-- ==== Sys2Proof/Config.lean ====
section
/-! DEFINITION. The implementation parameters of 00_scope.md R7 and 20_memory.md R88, and the free values: what the
spec leaves unspecified is an opaque constant here, with no body, so that no proof can see it. -/

namespace Sys2Proof

/-- The implementation parameters (R7; BASE is 20_memory.md R88). They are a field of the state, so that a statement
over every state holds for every value of them (log 1). -/
structure Config where
  /-- NW: the number of physical brute-force workers. -/
  nw : Nat
  /-- PAIR_DEPTH: entries of the pair memory. -/
  pairDepth : Nat
  /-- TEXT_DEPTH: entries of each of TEXT_IN and TEXT_OUT. -/
  textDepth : Nat
  /-- BASE: where the core stands in the host's address map. -/
  base : Nat
  deriving DecidableEq, Repr

/-- The reference values of R7's table; BASE has none there, 0 is a DESIGN CHOICE (log 1, log 2). -/
def Config.reference : Config := { nw := 4, pairDepth := 16, textDepth := 256, base := 0 }

/-- FREE VALUE: byte at a RAM address that nothing has written since hardware reset number `epoch`
(70_reset_and_hazards.md R300, R304; log 3). -/
opaque Config.freeByte (epoch address : Nat) : Byte

/-- FREE VALUE: the word a host read of an output location returns while BUSY = 1 (20_memory.md R77; log 6), and
the value ELAPSED takes at a SEARCH commit (44_bruteforce.md R253; log 7). -/
opaque Config.freeWord (draw : Nat) : Word

/-- FREE VALUE: AGG_MAP after a reset (10_state.md R45; log 8). -/
opaque Config.freeAggMap (draw : Nat) : KeySet

/-- FREE VALUE: LBUF of worker `w` after a reset (10_state.md R44; log 8). -/
opaque Config.freeLbuf (draw w : Nat) : KeySet

/-- FREE VALUE: lo (field 0), hi (field 1) and k (field 2) of worker `w` after a reset, 11 bits each
(10_state.md R44; log 8). -/
opaque Config.freeIndex (draw w field : Nat) : BitVec 11

/-- FREE VALUE: which agent is offered the move after move number `turn` (44_bruteforce.md R247; log 11). -/
opaque Config.freeTurn (turn : Nat) : Nat

end Sys2Proof
end

