-- ==== Sys2Proof/Syntax.lean ====
section
/-! DEFINITION. The five commands: one constructor for each row of spec/opcode_table.json. -/

namespace Sys2Proof

/-- A command (00_scope.md R2, 30_encoding.md R103). A command word carries no operand fields (R102), so no constructor
has an argument: every operand is taken from a fixed register or window (R104). -/
inductive Instr where
  /-- ENC_BLOCK, `encrypt_block`: 43_block_cipher.md R203. -/
  | encBlock
  /-- DEC_BLOCK, `decrypt_block`: 43_block_cipher.md R204. -/
  | decBlock
  /-- ENC_TEXT, `encrypt_text`: 43_block_cipher.md R208. -/
  | encText
  /-- DEC_TEXT, `decrypt_text`: 43_block_cipher.md R209. -/
  | decText
  /-- SEARCH, `search`: 44_bruteforce.md R230. -/
  | search
  deriving DecidableEq, Repr

end Sys2Proof
end

