-- ==== Sys2Proof/WellFormed.lean ====
section
/-! DEFINITION. The well-formedness checks: the parameters' legal ranges (00_scope.md R7, 20_memory.md R88), the
entries of a permutation table (40_permutation.md R147), command words (30_encoding.md R103) and instructions. -/

namespace Sys2Proof

/-- The legal ranges of R7, and BASE "must be aligned to 2^20 bytes" (20_memory.md R88). -/
def Config.wf (c : Config) : Bool :=
  decide (1 ≤ c.nw) && decide (c.nw ≤ 1024) &&
  decide (1 ≤ c.pairDepth) && decide (c.pairDepth ≤ 512) &&
  decide (1 ≤ c.textDepth) && decide (c.textDepth ≤ 65536) &&
  decide (c.base % 2 ^ 20 = 0)

/-- A permutation table is well formed for inputs of length `n` when every entry is a 1-based position of the input
(R12, R147): "implementations must treat" any other entry "as a programming error". -/
def tableWf (n : Nat) (table : List Nat) : Bool :=
  table.all fun p => decide (1 ≤ p) && decide (p ≤ n)

/-- The word selects a command of R103: RSVD is 0 and OP is 1..5. -/
def commandWordWf (c : Word) : Bool :=
  decide (c.toNat / 16 = 0) && decide (1 ≤ c.toNat % 16) && decide (c.toNat % 16 ≤ 5)

/-- An instruction has no operand fields (R102), so there is nothing in it to be ill formed. -/
def Instr.wf : Instr → Bool
  | .encBlock => true
  | .decBlock => true
  | .encText => true
  | .decText => true
  | .search => true

end Sys2Proof
end

