-- ==== Sys2Proof/Machine/Cipher.lean ====
section
/-! DEFINITION. The cipher datapath: permutation engine (40_permutation.md), key schedule (41_key_schedule.md), round
function and S-box ROMs (42_round_function.md), block cipher (43_block_cipher.md section 1). All pure; the constants are
hardwired (10_state.md R47; log 19). -/

namespace Sys2Proof.Machine

/-- Position `p` of an n-bit sequence, 1-based from the left: "position p of an n-bit field is register bit n - p"
(00_scope.md R8, R10). -/
def seqBit (s : BitVec n) (p : Nat) : Bool := s.getLsbD (n - p)

/-- permute(s, T) = r with r{i} = s{T[i]} (R12, R140), for a table of `m` entries: the result is read left to right. -/
def permute (m : Nat) (table : List Nat) (s : BitVec n) : BitVec m :=
  table.foldl (fun r p => (r <<< 1) ||| (BitVec.ofBool (seqBit s p)).setWidth m) 0

/-- R141. -/
def tableP10 : List Nat := [3, 5, 2, 7, 4, 10, 1, 9, 8, 6]
/-- R142. -/
def tableP8 : List Nat := [6, 3, 7, 4, 8, 5, 10, 9]
/-- R143. -/
def tableIP : List Nat := [2, 6, 3, 1, 4, 8, 5, 7]
/-- R144. -/
def tableIPINV : List Nat := [4, 1, 3, 5, 7, 2, 8, 6]
/-- R145. -/
def tableEP : List Nat := [4, 1, 2, 3, 2, 3, 4, 1]
/-- R146. -/
def tableP4 : List Nat := [2, 4, 3, 1]

/-- P10, the key permutation (R141). -/
def permP10 (s : BitVec 10) : BitVec 10 := permute 10 tableP10 s
/-- P8, the subkey compression (R142). -/
def permP8 (s : BitVec 10) : Byte := permute 8 tableP8 s
/-- IP, the initial permutation (R143). -/
def permIP (s : Byte) : Byte := permute 8 tableIP s
/-- IPINV, the final permutation (R144). -/
def permIPINV (s : Byte) : Byte := permute 8 tableIPINV s
/-- EP, the round-function expansion (R145). -/
def permEP (s : Nibble) : Byte := permute 8 tableEP s
/-- P4, the round-function output permutation (R146). -/
def permP4 (s : Nibble) : Nibble := permute 4 tableP4 s

/-- rotl(s, n) on a 5-bit half: "the first n bits move to the end, preserving length" (R161, register form). -/
def rotl5 (s : BitVec 5) (n : Nat) : BitVec 5 := (s <<< n) ||| (s >>> (5 - n))

/-- GEN_SUBKEYS(key) = (K1, K2) (R160). K2 rotates the ORIGINAL halves by 2: the shift is not cumulative (R162). -/
def genSubkeys (key : MasterKey) : Byte × Byte :=
  let p := permP10 key
  let l : BitVec 5 := p.extractLsb' 5 5
  let r : BitVec 5 := p.extractLsb' 0 5
  (permP8 (rotl5 l 1 ++ rotl5 r 1), permP8 (rotl5 l 2 ++ rotl5 r 2))

/-- S1, row-major (R180). -/
def sboxS1 : List (List (BitVec 2)) :=
  [[1, 0, 3, 2],
   [3, 2, 1, 0],
   [0, 2, 1, 3],
   [3, 1, 0, 2]]

/-- S2, row-major (R180). -/
def sboxS2 : List (List (BitVec 2)) :=
  [[0, 1, 2, 3],
   [2, 3, 1, 0],
   [3, 0, 1, 2],
   [2, 1, 0, 3]]

/-- The word of an S-box ROM at a 4-bit address (20_memory.md R90): 16 words of 2 bits, every address populated. -/
def romWord (sx : List (List (BitVec 2))) (a : Nat) : BitVec 2 := sx.flatten.getD a 0

/-- row(g) = 2·g{1} + g{4} (R181). -/
def sboxRow (g : Nibble) : Nat := 2 * (seqBit g 1).toNat + (seqBit g 4).toNat

/-- col(g) = 2·g{2} + g{3} (R181; the column's bit order is the spec's decision D3). -/
def sboxCol (g : Nibble) : Nat := 2 * (seqBit g 2).toNat + (seqBit g 3).toNat

/-- sbox(Sx, g): the ROM read at address 4·row(g) + col(g) (R182). -/
def sbox (sx : List (List (BitVec 2))) (g : Nibble) : BitVec 2 := romWord sx (4 * sboxRow g + sboxCol g)

/-- F(h, sk) (R183) with the S-box contents as arguments: segment 1 goes to the first, segment 2 to the second. -/
def roundFWith (sx sy : List (List (BitVec 2))) (h : Nibble) (sk : Byte) : Nibble :=
  let x := permEP h ^^^ sk
  let g1 : Nibble := x.extractLsb' 4 4
  let g2 : Nibble := x.extractLsb' 0 4
  permP4 (sbox sx g1 ++ sbox sy g2)

/-- FEISTEL(b, ka, kb) (R201) with the S-box contents as arguments: two rounds, the swap after the first only. -/
def feistelWith (sx sy : List (List (BitVec 2))) (b ka kb : Byte) : Byte :=
  let t := permIP b
  let l0 : Nibble := t.extractLsb' 4 4
  let r0 : Nibble := t.extractLsb' 0 4
  let r1 := l0 ^^^ roundFWith sx sy r0 ka
  let l2 := r0 ^^^ roundFWith sx sy r1 kb
  permIPINV (l2 ++ r1)

/-- F(h, sk) (R183) with the ROMs S1 and S2. -/
def roundF (h : Nibble) (sk : Byte) : Nibble := roundFWith sboxS1 sboxS2 h sk

/-- FEISTEL(b, ka, kb) (R201) with the ROMs S1 and S2. -/
def feistel (b ka kb : Byte) : Byte := feistelWith sboxS1 sboxS2 b ka kb

/-- ENCRYPT8(b, k) (R202). -/
def encrypt8 (b : Byte) (k : MasterKey) : Byte := feistel b (genSubkeys k).1 (genSubkeys k).2

/-- DECRYPT8(b, k) (R202): "subkey order is reversed". -/
def decrypt8 (b : Byte) (k : MasterKey) : Byte := feistel b (genSubkeys k).2 (genSubkeys k).1

end Sys2Proof.Machine
end

