-- ==== Sys2Proof/Decode.lean ====
section
/-! DEFINITION. The command word (30_encoding.md R100 to R107): fields, decoder, encoder. The decoder is total on every
32-bit word and rejects by name. -/

namespace Sys2Proof

/-- Why a word is no command (60_exceptions.md R271, sub-causes 9 and 10). -/
inductive IllegalWord where
  /-- RSVD = 0 and OP is 0x0 or 0x6..0xF: R106. -/
  | opReserved
  /-- RSVD is not 0: R105. -/
  | reservedBits
  deriving DecidableEq, Repr

/-- What a command word decodes to (R107). -/
inductive Decoded where
  /-- One of the five commands. -/
  | cmd (i : Instr)
  /-- An illegal word, with its sub-cause. -/
  | illegal (why : IllegalWord)
  deriving DecidableEq, Repr

/-- The field OP = c[3:0] (R100). -/
def opField (c : Word) : BitVec 4 := c.extractLsb' 0 4

/-- The field RSVD = c[31:4] (R100). -/
def rsvdField (c : Word) : BitVec 28 := c.extractLsb' 4 28

/-- R107, arm for arm: the order of the two illegal tests is the priority of 60_exceptions.md R272. -/
def decode (c : Word) : Decoded :=
  if rsvdField c ≠ 0 then .illegal .reservedBits
  else if opField c = 0x1 then .cmd .encBlock
  else if opField c = 0x2 then .cmd .decBlock
  else if opField c = 0x3 then .cmd .encText
  else if opField c = 0x4 then .cmd .decText
  else if opField c = 0x5 then .cmd .search
  else .illegal .opReserved

/-- The full word of each command: R103's second column. -/
def encode : Instr → Word
  | .encBlock => 0x00000001
  | .decBlock => 0x00000002
  | .encText => 0x00000003
  | .decText => 0x00000004
  | .search => 0x00000005

/-- The command word whose low `nbits` bits are those of `w`, every bit above them 0. A command word is one 32-bit
bus word (R101) and has no byte order (20_memory.md R79; log 21). -/
def tableWord (nbits w : Nat) : Word := BitVec.ofNat 32 (w % 2 ^ nbits)

/-- The instruction the decoder reads from the opcode table's word `w` of `nbits` bits. -/
def decodeTableWord (nbits w : Nat) : Option Instr :=
  match decode (tableWord nbits w) with
  | .cmd i => some i
  | .illegal _ => none

end Sys2Proof
end

