-- ==== Sys2Proof/Machine/HostProgram.lean ====
section
/-! DEFINITION. Locations of the host register space (20_memory.md R71) and the host program's statements and
pseudo-instructions (30_encoding.md R116, R117). The program itself stands outside the core (log 12). -/

namespace Sys2Proof.Machine

/-- A register or window entry of the host register space (R71). -/
inductive Loc where
  | capNw
  | capPairDepth
  | capTextDepth
  | ctrl
  | cmd
  | status
  | errInfo
  | key
  | din
  | dout
  | textLen
  | pairCount
  | workers
  | workersEff
  | matchCount
  | elapsed
  | pairPt (i : Nat)
  | pairCt (i : Nat)
  | matchKey (j : Nat)
  | matchMap (w : Nat)
  | textIn (i : Nat)
  | textOut (i : Nat)
  deriving DecidableEq, Repr

/-- Byte offset of PAIR_PT[i] (10_state.md R38). -/
def pairPtOff (i : Nat) : Nat := 0x01000 + 8 * i

/-- Byte offset of PAIR_CT[i] (R38). -/
def pairCtOff (i : Nat) : Nat := 0x01004 + 8 * i

/-- Byte offset of MATCH_KEY[j] (R42). -/
def matchKeyOff (j : Nat) : Nat := 0x02000 + 4 * j

/-- Byte offset of MATCH_MAP[w] (R41). -/
def matchMapOff (w : Nat) : Nat := 0x03000 + 4 * w

/-- Byte offset of TEXT_IN[i] (R39). -/
def textInOff (i : Nat) : Nat := 0x40000 + 4 * i

/-- Byte offset of TEXT_OUT[i] (R40). -/
def textOutOff (i : Nat) : Nat := 0x80000 + 4 * i

/-- off(loc): the byte offset of a location (10_state.md section 2 and R38 to R42). For an entry past its window, to which
those rules give no offset, it is the number the window's formula gives: DESIGN CHOICE, and no access is made there
(`HostLoc.address`; log 27). -/
def Loc.offset : Loc → Nat
  | .capNw => 0x000
  | .capPairDepth => 0x004
  | .capTextDepth => 0x008
  | .ctrl => 0x010
  | .cmd => 0x014
  | .status => 0x018
  | .errInfo => 0x01C
  | .key => 0x020
  | .din => 0x024
  | .dout => 0x028
  | .textLen => 0x02C
  | .pairCount => 0x030
  | .workers => 0x034
  | .workersEff => 0x038
  | .matchCount => 0x03C
  | .elapsed => 0x040
  | .pairPt i => pairPtOff i
  | .pairCt i => pairCtOff i
  | .matchKey j => matchKeyOff j
  | .matchMap w => matchMapOff w
  | .textIn i => textInOff i
  | .textOut i => textOutOff i

/-- The location exists in a core with parameters `c`: every window has the depth R71 gives it. -/
def Loc.present (c : Config) : Loc → Bool
  | .pairPt i => decide (i < c.pairDepth)
  | .pairCt i => decide (i < c.pairDepth)
  | .matchKey j => decide (j < 1024)
  | .matchMap w => decide (w < 32)
  | .textIn i => decide (i < c.textDepth)
  | .textOut i => decide (i < c.textDepth)
  | .capNw | .capPairDepth | .capTextDepth | .ctrl | .cmd | .status | .errInfo | .key | .din | .dout | .textLen
  | .pairCount | .workers | .workersEff | .matchCount | .elapsed => true

/-- `<loc>` of a statement (R116): "a register name", "a window entry" or "a hex offset". -/
inductive HostLoc where
  | named (l : Loc)
  | hex (off : BitVec 20)
  deriving DecidableEq, Repr

/-- The byte offset a `<loc>` stands for (past a window: log 27). -/
def HostLoc.off : HostLoc → Nat
  | .named l => l.offset
  | .hex off => off.toNat

/-- The address an access to `<loc>` is made at, BASE + off(loc) (R116). A named entry at or past its window's depth has
none, so that the access gets the bus error of 20_memory.md R74 and never reaches another window: DESIGN CHOICE (log 27). -/
def HostLoc.address (c : Config) : HostLoc → Option Nat
  | .named l => if l.present c then some (c.base + l.offset) else none
  | .hex off => some (c.base + off.toNat)

/-- A host program's statements. The first four are R116's; names and labels are numbers. The last three let any
access of R72 and R73 and the reset input of 70_reset_and_hazards.md R300 be driven (log 12). -/
inductive HostStmt where
  /-- `WR <loc>, <imm32>`: MemWrite(BASE + off(loc), 4, imm32). -/
  | wr (loc : HostLoc) (imm : Word)
  /-- `RD <loc> -> <name>`: name <- MemRead(BASE + off(loc), 4). -/
  | rd (loc : HostLoc) (name : Nat)
  /-- `<label>:` marks a host program point. -/
  | label (l : Nat)
  /-- `BNE <name>, <mask>, <value>, <label>`: go to label if (name & mask) ≠ value. -/
  | bne (name : Nat) (mask value : Word) (l : Nat)
  /-- MemRead(addr, size) at any byte address and of any size. -/
  | rawRead (size addr : Nat)
  /-- MemWrite(addr, size, v) at any byte address and of any size. -/
  | rawWrite (size addr : Nat) (v : Word)
  /-- The reset input `rst` is driven: asserted or released (log 20). -/
  | rst (asserted : Bool)
  deriving DecidableEq, Repr

/-- The direction of a bus transaction (R116): W or R. -/
inductive BusDir where
  | write
  | read
  deriving DecidableEq, Repr

/-- A bus transaction (dir, offset, data) of R116; a read has no data. -/
structure BusTransaction where
  dir : BusDir
  offset : Nat
  data : Option Word
  deriving DecidableEq, Repr

/-- R116's encoding column: how a base statement is encoded as a bus transaction. -/
def HostStmt.transaction : HostStmt → Option BusTransaction
  | .wr loc imm => some { dir := .write, offset := loc.off, data := some imm }
  | .rd loc _ => some { dir := .read, offset := loc.off, data := none }
  | .label _ | .bne _ _ _ _ | .rawRead _ _ | .rawWrite _ _ _ | .rst _ => none

/-- A memory window, as `<WIN>` names it in `WRBUF` (R117). -/
inductive Window where
  | pairPt
  | pairCt
  | matchKey
  | matchMap
  | textIn
  | textOut
  deriving DecidableEq, Repr

/-- The window entry `NAME[i]` (R116). -/
def Window.entry : Window → Nat → Loc
  | .pairPt, i => .pairPt i
  | .pairCt, i => .pairCt i
  | .matchKey, i => .matchKey i
  | .matchMap, i => .matchMap i
  | .textIn, i => .textIn i
  | .textOut, i => .textOut i

/-- The pseudo-instructions of R117, and a base statement as it is. -/
inductive Pseudo where
  | base (st : HostStmt)
  | poll (loc : HostLoc) (mask value : Word)
  | wait
  | run (i : Instr)
  | ack
  | wrbuf (win : Window) (vs : List Word)
  | wrpairs (ps : List (Word × Word))
  deriving DecidableEq, Repr

/-- `POLL <loc>, <mask>, <value>`: `Lp: RD <loc> -> t` / `BNE t, <mask>, <value>, Lp` (R117). `lp` and `t` are the
label and the name the expansion uses. -/
def expandPoll (lp t : Nat) (loc : HostLoc) (mask value : Word) : List HostStmt :=
  [.label lp, .rd loc t, .bne t mask value lp]

/-- `WAIT`: POLL STATUS until BUSY = 0 and DONE = 1 (R117). -/
def expandWait (lp t : Nat) : List HostStmt := expandPoll lp t (.named .status) 0x00000003 0x00000002

/-- `WRBUF`: write the values to entries 0, 1, … of a window (R117). -/
def expandWrbuf (win : Window) (i : Nat) : List Word → List HostStmt
  | [] => []
  | v :: vs => .wr (.named (win.entry i)) v :: expandWrbuf win (i + 1) vs

/-- `WRPAIRS`: write each pair's PAIR_PT and PAIR_CT entry (R117). -/
def expandWrpairs (i : Nat) : List (Word × Word) → List HostStmt
  | [] => []
  | (p, c) :: ps => .wr (.named (.pairPt i)) p :: .wr (.named (.pairCt i)) c :: expandWrpairs (i + 1) ps

/-- The expansions of R117; `lp` is a label and `t` a name that the rest of the program does not use. -/
def Pseudo.expand (lp t : Nat) : Pseudo → List HostStmt
  | .base st => [st]
  | .poll loc mask value => expandPoll lp t loc mask value
  | .wait => expandWait lp t
  | .run i => .wr (.named .cmd) (encode i) :: expandWait lp t
  | .ack => [.wr (.named .status) 0x0000000A]
  | .wrbuf win vs => expandWrbuf win 0 vs
  | .wrpairs ps => expandWrpairs 0 ps

/-- A whole program: pseudo-instruction number n uses label n for its own loop, so a program's own labels must start
past its length; `t` is the name every poll reads into. -/
def expandProgram (t : Nat) (n : Nat) : List Pseudo → List HostStmt
  | [] => []
  | p :: ps => p.expand n t ++ expandProgram t (n + 1) ps

/-- Where a label stands in a program (R116): "go to label". R116 does not say where a branch goes when the label stands in
the program twice: here to the first place it stands at: DESIGN CHOICE (log 28). -/
def labelIndex (prog : List HostStmt) (l : Nat) : Option Nat := prog.findIdx? fun st => decide (st = .label l)

/-- The labels a program defines, in order. -/
def labelsOf (prog : List HostStmt) : List Nat :=
  prog.filterMap fun st => match st with
    | .label l => some l
    | _ => none

/-- A host program is well formed when no label stands twice and every branch goes to a label that stands in it. It is a
check that claims may assume; the machine runs a program that fails it too (logs 13 and 28). -/
def hostProgramWf (prog : List HostStmt) : Bool :=
  decide (labelsOf prog).Nodup && prog.all fun st => match st with
    | .bne _ _ _ l => (labelsOf prog).contains l
    | _ => true

end Sys2Proof.Machine
end

