-- ==== Sys2Proof/Machine/State.lean ====
section
/-! DEFINITION. The state of SDES-CORE (10_state.md R20 to R48), its reasons to stop, and its value after a hardware
reset (70_reset_and_hazards.md R300). Plain data throughout. -/

namespace Sys2Proof.Machine

/-- Why a step can stop. No command and no host access of the core stops a step: a command error is an error commit
(30_encoding.md R113) and a bus error a bus response (20_memory.md R73). Both constructors are about the HOST agent's
program, which stands outside the core (log 13). -/
inductive Fault where
  /-- Raised by the HOST agent's branch to a label that does not stand in its program. Safe: the spec gives such a
  program no meaning. -/
  | hostLabelMissing (label : Nat)
  /-- Raised by the HOST agent's branch on a name that no RD has bound, for example after a bus error, which
  "returns no data" (R73). Safe: the spec gives the name no value. -/
  | hostNameUnbound (name : Nat)
  deriving DecidableEq, Repr

/-- Why an instruction has no meaning. -/
inductive Refusal where
  /-- Raised by a dispatch arm without a meaning; no arm is, so nothing raises it. Safe. -/
  | notModelled (mnemonic : String)
  deriving DecidableEq, Repr

/-- The kinds of ERR_CODE (60_exceptions.md R270). -/
inductive ErrKind where
  /-- 0: a successful commit. -/
  | none
  /-- 1: INVALID_INPUT. -/
  | invalidInput
  /-- 2: ILLEGAL_CMD. -/
  | illegalCmd
  /-- 3: PROGRAMMING_ERROR, never raised (R276). -/
  | programmingError
  deriving DecidableEq, Repr

/-- The sub-causes of ERR_INFO (60_exceptions.md R271), in the order of their numbers 0..11. -/
inductive SubCause where
  | noError
  | keyRange
  | dinRange
  | textLenRange
  | textUnitRange
  | pairCountZero
  | pairCountRange
  | pairPtRange
  | pairCtRange
  | opReserved
  | cmdReservedBits
  | tableIndex
  deriving DecidableEq, Repr

/-- The fields of CTRL that have storage (10_state.md R24): SOFT_RESET reads 0 and the rest is reserved. -/
structure Ctrl where
  irqEn : Bool
  deriving DecidableEq, Repr

/-- The fields of STATUS that have storage (10_state.md R26); ERR is a view of ERR_CODE (R48). -/
structure Status where
  busy : Bool
  done : Bool
  dropped : Bool
  errCode : ErrKind
  lastOp : BitVec 4
  deriving DecidableEq, Repr

/-- The fields of ERR_INFO (10_state.md R28). -/
structure ErrInfo where
  subcause : SubCause
  index : BitVec 16
  deriving DecidableEq, Repr

/-- SEQ.phase (10_state.md R43). -/
inductive SeqPhase where
  | idle
  | exec
  | searchRun
  deriving DecidableEq, Repr

/-- WORKER[w].phase (10_state.md R44). -/
inductive WorkerPhase where
  | idle
  | run
  | mergePending
  | merged
  deriving DecidableEq, Repr

/-- One brute-force worker (10_state.md R44). lo, hi and k are 11-bit naturals: the range is [lo, hi), k the next key. -/
structure Worker where
  phase : WorkerPhase
  lo : Nat
  hi : Nat
  k : Nat
  lbuf : KeySet
  deriving DecidableEq, Repr

/-- The aggregator's LOCK (10_state.md R45). -/
inductive Lock where
  | free
  | held (w : Nat)
  deriving DecidableEq, Repr

/-- The agents (00_scope.md R13). -/
inductive Agent where
  | host
  | seq
  | worker (w : Nat)
  deriving DecidableEq, Repr

/-- The response of one host access (20_memory.md R72, R73). -/
inductive BusResponse where
  /-- No access yet. -/
  | none
  /-- A legal write was performed, ignored (R75) or dropped (R78). -/
  | written
  /-- A legal read returned this word. -/
  | data (v : Word)
  /-- A bus error: no data, no change of the core's state. -/
  | busError
  deriving DecidableEq, Repr

/-- The HOST agent (00_scope.md R13): its program (30_encoding.md R116), the statement it stands at, the names its RD
statements have bound, sorted by name, and the last bus response. The model's own fields (log 12). -/
structure HostAgent where
  prog : List HostStmt
  pc : Nat
  names : List (Nat × Word)
  resp : BusResponse
  deriving DecidableEq, Repr

/-- Everything the spec gives the machine, the HOST agent that drives it, and the model's own counters. -/
structure State where
  /-- CAP_NW, CAP_PAIR_DEPTH, CAP_TEXT_DEPTH (R21 to R23) and BASE (20_memory.md R88): hardwired. -/
  cfg : Config
  /-- CTRL (R24). -/
  ctrl : Ctrl
  /-- STATUS (R26). -/
  status : Status
  /-- ERR_INFO (R28). -/
  errInfo : ErrInfo
  /-- KEY (R29): all 32 bits as written. -/
  key : Word
  /-- DIN (R30). -/
  din : Word
  /-- DOUT[7:0] (R31): bits 31:8 read 0. -/
  dout : Byte
  /-- TEXT_LEN (R32). -/
  textLen : Word
  /-- PAIR_COUNT (R33). -/
  pairCount : Word
  /-- WORKERS (R34), read as a signed number. -/
  workersReq : Word
  /-- WORKERS_EFF (R35). -/
  workersEff : Word
  /-- ELAPSED (R37). -/
  elapsed : Word
  /-- MATCH_MAP (R41); MATCH_COUNT and MATCH_KEY are views of it (R36, R42). -/
  matchMap : KeySet
  /-- The RAM windows PAIR_PT, PAIR_CT, TEXT_IN and TEXT_OUT (R38 to R40): the written bytes by host byte offset. -/
  ram : List Host.Cell
  /-- The model's own: which hardware reset the unwritten RAM's free contents belong to (log 3). -/
  ramEpoch : Nat
  /-- SEQ.phase (R43). -/
  phase : SeqPhase
  /-- SEQ.op (R43, 30_encoding.md R110). -/
  op : Decoded
  /-- WORKER[0 .. NW-1] (R44). -/
  workers : List Worker
  /-- AGG_MAP (R45). -/
  aggMap : KeySet
  /-- LOCK (R45). -/
  lock : Lock
  /-- The level of the reset input `rst`: true while it is asserted (70_reset_and_hazards.md R300; log 20). -/
  rst : Bool
  /-- The HOST agent (log 12). -/
  host : HostAgent
  /-- The model's own: the counter free values are drawn at (log 6). -/
  draws : Nat
  /-- The model's own: the number of moves made (log 11). -/
  turn : Nat
  /-- The model's own: the agent that is offered the next move (log 11). -/
  grant : Agent
  deriving DecidableEq, Repr

/-- STATUS after a reset: 0x00000000 (10_state.md section 2). -/
def Status.reset : Status := { busy := false, done := false, dropped := false, errCode := .none, lastOp := 0 }

/-- ERR_INFO after a reset, and after a successful commit: 0x00000000. -/
def ErrInfo.zero : ErrInfo := { subcause := .noError, index := 0 }

/-- The workers after a reset: every phase IDLE (R44, R300); lo, hi, k and LBUF are unspecified, so free (log 8). -/
def resetWorkers (c : Config) (draw : Nat) : List Worker :=
  (List.range c.nw).map fun w =>
    { phase := .idle
      lo := (Config.freeIndex draw w 0).toNat
      hi := (Config.freeIndex draw w 1).toNat
      k := (Config.freeIndex draw w 2).toNat
      lbuf := Config.freeLbuf draw w }

/-- The HOST agent with no program loaded (log 15). -/
def HostAgent.unloaded : HostAgent := { prog := [], pc := 0, names := [], resp := .none }

/-- The state after a hardware reset of a core with parameters `c`, `rst` released (70_reset_and_hazards.md R300). What the spec leaves
unspecified is taken at draw number `draw`: RAM (log 3), AGG_MAP and the workers' registers (log 8). SEQ.op has no
reset value in the spec: a DESIGN CHOICE (log 9). The last four fields are the model's own. -/
def State.resetOf (c : Config) (draw : Nat) : State where
  cfg := c
  ctrl := { irqEn := false }
  status := Status.reset
  errInfo := ErrInfo.zero
  key := 0
  din := 0
  dout := 0
  textLen := 0
  pairCount := 0
  workersReq := 0
  workersEff := 0
  elapsed := 0
  matchMap := 0
  ram := []
  ramEpoch := draw
  phase := .idle
  op := .illegal .opReserved
  workers := resetWorkers c draw
  aggMap := Config.freeAggMap draw
  lock := .free
  rst := false
  host := HostAgent.unloaded
  draws := draw + 1
  turn := 0
  grant := .seq

/-- The machine right after reset, with the reference parameters (log 1). -/
def State.reset : State := State.resetOf Config.reference 0

end Sys2Proof.Machine
end

