-- ==== Sys2Proof/Machine/Flags.lean ====
section
/-! DEFINITION. Every change and every view of the status bits: STATUS (10_state.md R26, R27), ERR_INFO (R28), CTRL (R24),
the error codes (60_exceptions.md R270, R271) and the interrupt line (R283). -/

namespace Sys2Proof.Machine

/-- The number of an error kind in ERR_CODE (R270). -/
def ErrKind.code : ErrKind → BitVec 4
  | .none => 0
  | .invalidInput => 1
  | .illegalCmd => 2
  | .programmingError => 3

/-- The number of a sub-cause in ERR_INFO.SUBCAUSE (R271). -/
def SubCause.code : SubCause → BitVec 8
  | .noError => 0
  | .keyRange => 1
  | .dinRange => 2
  | .textLenRange => 3
  | .textUnitRange => 4
  | .pairCountZero => 5
  | .pairCountRange => 6
  | .pairPtRange => 7
  | .pairCtRange => 8
  | .opReserved => 9
  | .cmdReservedBits => 10
  | .tableIndex => 11

/-- The kind each sub-cause belongs to: R271's ERR_CODE column. -/
def SubCause.kind : SubCause → ErrKind
  | .noError => .none
  | .keyRange => .invalidInput
  | .dinRange => .invalidInput
  | .textLenRange => .invalidInput
  | .textUnitRange => .invalidInput
  | .pairCountZero => .invalidInput
  | .pairCountRange => .invalidInput
  | .pairPtRange => .invalidInput
  | .pairCtRange => .invalidInput
  | .opReserved => .illegalCmd
  | .cmdReservedBits => .illegalCmd
  | .tableIndex => .programmingError

/-- The sub-cause of an illegal word (30_encoding.md R105, R106). -/
def illegalSubCause : IllegalWord → SubCause
  | .opReserved => .opReserved
  | .reservedBits => .cmdReservedBits

/-- STATUS.ERR: "always equal to (ERR_CODE ≠ 0)" (R26). -/
def Status.err (st : Status) : Bool := decide (st.errCode.code ≠ 0)

/-- The word a read of STATUS returns (R26): BUSY 0, DONE 1, ERR 2, DROPPED 3, ERR_CODE 7:4, LAST_OP 11:8. -/
def Status.word (st : Status) : Word :=
  (0 : BitVec 20) ++ st.lastOp ++ st.errCode.code ++ BitVec.ofBool st.dropped ++ BitVec.ofBool st.err ++
    BitVec.ofBool st.done ++ BitVec.ofBool st.busy

/-- STATUS at the acceptance of command word `c` (30_encoding.md R110): DROPPED is not changed. -/
def Status.accept (st : Status) (c : Word) : Status :=
  { st with busy := true, done := false, errCode := .none, lastOp := opField c }

/-- STATUS at a commit that ends with an error of kind `kind`, or with none (R112, R113). -/
def Status.commit (st : Status) (kind : ErrKind) : Status :=
  { st with busy := false, done := true, errCode := kind }

/-- A host write of `v` to STATUS (R27): write 1 to clear, bits 1 and 3. -/
def Status.clear (st : Status) (v : Word) : Status :=
  { st with done := st.done && !v.getLsbD 1, dropped := st.dropped && !v.getLsbD 3 }

/-- A host write was dropped because BUSY = 1 (20_memory.md R78). -/
def Status.markDropped (st : Status) : Status := { st with dropped := true }

/-- The word a read of ERR_INFO returns (R28): SUBCAUSE 7:0, INDEX 31:16. -/
def ErrInfo.word (e : ErrInfo) : Word := e.index ++ (0 : BitVec 8) ++ e.subcause.code

/-- The word a read of CTRL returns (R24): SOFT_RESET and the reserved bits read 0. -/
def Ctrl.word (c : Ctrl) : Word := (BitVec.ofBool c.irqEn).setWidth 32

/-- The interrupt output: irq = CTRL.IRQ_EN & STATUS.DONE (60_exceptions.md R283). -/
def irq (s : State) : Bool := s.ctrl.irqEn && s.status.done

end Sys2Proof.Machine
end

