-- ==== Sys2Proof/Machine/Operands.lean ====
section
/-! DEFINITION. The RAM windows byte by byte (10_state.md R38 to R40, 20_memory.md R79), every operand form of 30_encoding.md
R104, and the checks of each command in the order of 60_exceptions.md R272. -/

namespace Sys2Proof.Machine

/-- Look an address up in a sparse memory. -/
def cellGet (m : List (Nat × α)) (a : Nat) : Option α :=
  match m with
  | [] => none
  | (k, v) :: r => if k = a then some v else cellGet r a

/-- Write an address of a sparse memory, keeping the addresses strictly rising. -/
def cellSet (m : List (Nat × α)) (a : Nat) (x : α) : List (Nat × α) :=
  match m with
  | [] => [(a, x)]
  | (k, v) :: r =>
    if a < k then (a, x) :: (k, v) :: r
    else if a = k then (a, x) :: r
    else (k, v) :: cellSet r a x

/-- The canonical form of memory: addresses strictly rising. What an unlisted byte reads as is a free value, which no
listed byte can be seen to equal, so no entry is ever removed (log 3). -/
abbrev Memory.wf (m : List Host.Cell) : Prop := m.Pairwise fun x y => x.1 < y.1

/-- A RAM byte at a host byte offset. A byte that nothing has written since hardware reset number `ramEpoch` is a free
value (70_reset_and_hazards.md R300, R304; log 3). -/
def ramByte (s : State) (a : Nat) : Byte := (cellGet s.ram a).getD (Config.freeByte s.ramEpoch a)

/-- A 32-bit RAM entry: four bytes, the least significant at the lowest offset. No host access shows the byte order
(20_memory.md R79; log 4). -/
def ramWord (s : State) (a : Nat) : Word :=
  ramByte s (a + 3) ++ ramByte s (a + 2) ++ ramByte s (a + 1) ++ ramByte s a

/-- The RAM with one byte written. -/
def setByte (m : List Host.Cell) (a : Nat) (b : Byte) : List Host.Cell := cellSet m a b

/-- The RAM with a 32-bit entry written. -/
def setWord (m : List Host.Cell) (a : Nat) (v : Word) : List Host.Cell :=
  setByte (setByte (setByte (setByte m a (v.extractLsb' 0 8)) (a + 1) (v.extractLsb' 8 8)) (a + 2) (v.extractLsb' 16 8))
    (a + 3) (v.extractLsb' 24 8)

/-- PAIR_PT[i] (R38): all 32 bits. -/
def pairPt (s : State) (i : Nat) : Word := ramWord s (pairPtOff i)

/-- PAIR_CT[i] (R38): all 32 bits. -/
def pairCt (s : State) (i : Nat) : Word := ramWord s (pairCtOff i)

/-- TEXT_IN[i] (R39): all 32 bits. -/
def textIn (s : State) (i : Nat) : Word := ramWord s (textInOff i)

/-- TEXT_OUT[i][7:0] (R40): the only bits with storage; bits 31:8 read 0 (log 5). -/
def textOut (s : State) (i : Nat) : Byte := ramByte s (textOutOff i)

/-- The block seq_8(w[7:0]) of a register or entry (R30, R38, R39). -/
def blockOf (w : Word) : Byte := w.setWidth 8

/-- The master key seq_10(KEY[9:0]) (R29). -/
def masterKey (s : State) : MasterKey := s.key.setWidth 10

/-- An error a command raises: its sub-cause and index (60_exceptions.md R271). -/
abbrev CommandError := SubCause × Nat

/-- KEY_RANGE: KEY ≥ 1024 (R29, R271). -/
def keyError (s : State) : Option CommandError :=
  if 1024 ≤ s.key.toNat then some (.keyRange, 0) else none

/-- ENC_BLOCK and DEC_BLOCK (R203, R204, R272): DIN_RANGE, then KEY_RANGE. -/
def blockError (s : State) : Option CommandError :=
  if 256 ≤ s.din.toNat then some (.dinRange, 0) else keyError s

/-- The lowest i < n with TEXT_IN[i] ≥ 256 (R39). -/
def firstBadUnit (s : State) (n : Nat) : Option Nat :=
  (List.range n).find? fun i => decide (256 ≤ (textIn s i).toNat)

/-- ENC_TEXT and DEC_TEXT (R208, R272): TEXT_LEN_RANGE, then TEXT_UNIT_RANGE for ascending i, then KEY_RANGE. -/
def textError (s : State) : Option CommandError :=
  if s.cfg.textDepth < s.textLen.toNat then some (.textLenRange, 0)
  else match firstBadUnit s s.textLen.toNat with
    | some i => some (.textUnitRange, i)
    | none => keyError s

/-- The range error of pair i, PAIR_PT before PAIR_CT (R231). -/
def pairError (s : State) (i : Nat) : Option CommandError :=
  if 256 ≤ (pairPt s i).toNat then some (.pairPtRange, i)
  else if 256 ≤ (pairCt s i).toNat then some (.pairCtRange, i)
  else none

/-- validate() of SEARCH (44_bruteforce.md R231): PAIR_COUNT_ZERO, PAIR_COUNT_RANGE, then the pairs in ascending order. -/
def searchError (s : State) : Option CommandError :=
  if s.pairCount = 0 then some (.pairCountZero, 0)
  else if s.cfg.pairDepth < s.pairCount.toNat then some (.pairCountRange, 0)
  else (List.range s.pairCount.toNat).findSome? (pairError s)

end Sys2Proof.Machine
end

