-- ==== Sys2Proof/Machine/Ops.lean ====
section
/-! DEFINITION. The shared operations: acceptance and the two commits of a command (30_encoding.md R110, R112, R113), the
resets (70_reset_and_hazards.md R300, R302), and host reads and writes of every location (20_memory.md R71 to R81). -/

namespace Sys2Proof.Machine

/-- Apply a function to the next state of an outcome. -/
def mapNext (f : State → State) : Host.Outcome State Fault Refusal → Host.Outcome State Fault Refusal
  | .next s => .next (f s)
  | .fault r => .fault r
  | .refused r => .refused r

/-! ### The command lifecycle -/

/-- Acceptance of command word `c` (R110): one step; every word is accepted, illegal words included. -/
def accept (c : Word) (s : State) : State :=
  { s with status := s.status.accept c, op := decode c, phase := .exec }

/-- Successful commit (R112), applied to a state that already holds the command's outputs. -/
def commitOk (s : State) : State :=
  { s with status := s.status.commit .none, errInfo := ErrInfo.zero, phase := .idle }

/-- Error commit (R113): the whole of trap entry (60_exceptions.md R278). No output changes (R274). -/
def commitError (e : CommandError) (s : State) : State :=
  { s with
    status := s.status.commit e.1.kind
    errInfo := { subcause := e.1, index := BitVec.ofNat 16 e.2 }
    phase := .idle }

/-- A command rule (R111): all checks first; on an error the error commit, else the command's effect. -/
def checked (err : Option CommandError) (effect : State → State) (s : State) : State :=
  match err with
  | some e => commitError e s
  | none => effect s

/-! ### Resets -/

/-- Hardware reset (R300): every field at its reset value, the unspecified ones at a fresh draw. The parameters are
hardwired; the reset input, the HOST agent and the order of moves are no part of the core. A running command ends with no
commit. -/
def hardReset (s : State) : State :=
  { State.resetOf s.cfg s.draws with rst := s.rst, host := s.host, turn := s.turn, grant := s.grant }

/-- The reset input is driven to a level (R300): "While the reset input `rst` is asserted, and at its release, the core
takes this state". A release of an input that is not asserted is no event (log 20). -/
def driveRst (s : State) (asserted : Bool) : State :=
  if asserted || s.rst then { hardReset s with rst := asserted } else s

/-- Soft reset (R302): as a hardware reset, but the RAM windows keep their contents. -/
def softReset (s : State) : State := { hardReset s with ram := s.ram, ramEpoch := s.ramEpoch }

/-! ### The host register space -/

/-- R71's fixed registers by byte offset (10_state.md section 2). -/
def registerMap : List (Nat × Loc) :=
  [(0x000, .capNw), (0x004, .capPairDepth), (0x008, .capTextDepth),
   (0x010, .ctrl), (0x014, .cmd), (0x018, .status), (0x01C, .errInfo), (0x020, .key), (0x024, .din), (0x028, .dout),
   (0x02C, .textLen), (0x030, .pairCount), (0x034, .workers), (0x038, .workersEff), (0x03C, .matchCount),
   (0x040, .elapsed)]

/-- Entry number of an offset in a window of `depth` entries of `size` bytes each that starts at `start`. -/
def windowIndex (start size depth off : Nat) : Option Nat :=
  if start ≤ off ∧ off < start + size * depth then some ((off - start) / size) else none

/-- The pair window (R38): two words an entry. -/
def pairLoc (c : Config) (off : Nat) : Option Loc :=
  (windowIndex 0x01000 8 c.pairDepth off).map fun i => if off % 8 < 4 then .pairPt i else .pairCt i

/-- The location at a byte offset (R71); no location is a bus error (R74). Offsets are word aligned when this is asked. -/
def locate (c : Config) (off : Nat) : Option Loc :=
  (cellGet registerMap off).or <| (pairLoc c off).or <|
  ((windowIndex 0x02000 4 1024 off).map Loc.matchKey).or <|
  ((windowIndex 0x03000 4 32 off).map Loc.matchMap).or <|
  ((windowIndex 0x40000 4 c.textDepth off).map Loc.textIn).or <|
  (windowIndex 0x80000 4 c.textDepth off).map Loc.textOut

/-- The location a host access reaches, if it is legal (R72): size 4, addr[1:0] = 0, and mapped from BASE. Anything else
is a bus error (R73, R74). An address outside the core's 2^20 bytes reaches no location either (log 2). -/
def target (c : Config) (size addr : Nat) : Option Loc :=
  if size = 4 ∧ addr % 4 = 0 ∧ c.base ≤ addr ∧ addr < c.base + 2 ^ 20 then locate c (addr - c.base) else none

/-- The keys of a set in ascending order (R42). -/
def keysOf (m : KeySet) : List Nat := (List.range 1024).filter fun k => m.getLsbD k

/-- MATCH_COUNT = popcount(MATCH_MAP) (R36). -/
def matchCount (m : KeySet) : Nat := (List.range 1024).countP fun k => m.getLsbD k

/-- MATCH_KEY[j] (R42): the (j+1)-th smallest key of the set, 0 from MATCH_COUNT on. -/
def matchKey (m : KeySet) (j : Nat) : Nat := if j < matchCount m then (keysOf m).getD j 0 else 0

/-- MATCH_MAP[w] (R41): bit b is key 32·w + b. -/
def matchMapWord (m : KeySet) (w : Nat) : Word := m.extractLsb' (32 * w) 32

/-- What a location holds (R21 to R42); CMD reads 0 (R25). -/
def readLoc (s : State) : Loc → Word
  | .capNw => BitVec.ofNat 32 s.cfg.nw
  | .capPairDepth => BitVec.ofNat 32 s.cfg.pairDepth
  | .capTextDepth => BitVec.ofNat 32 s.cfg.textDepth
  | .ctrl => s.ctrl.word
  | .cmd => 0
  | .status => s.status.word
  | .errInfo => s.errInfo.word
  | .key => s.key
  | .din => s.din
  | .dout => s.dout.setWidth 32
  | .textLen => s.textLen
  | .pairCount => s.pairCount
  | .workers => s.workersReq
  | .workersEff => s.workersEff
  | .matchCount => BitVec.ofNat 32 (matchCount s.matchMap)
  | .elapsed => s.elapsed
  | .pairPt i => pairPt s i
  | .pairCt i => pairCt s i
  | .matchKey j => BitVec.ofNat 32 (matchKey s.matchMap j)
  | .matchMap w => matchMapWord s.matchMap w
  | .textIn i => textIn s i
  | .textOut i => (textOut s i).setWidth 32

/-- The output locations of R77. -/
def isOutput : Loc → Bool
  | .dout | .errInfo | .workersEff | .matchCount | .elapsed | .matchMap _ | .matchKey _ | .textOut _ => true
  | .capNw | .capPairDepth | .capTextDepth | .ctrl | .cmd | .status | .key | .din | .textLen | .pairCount | .workers
  | .pairPt _ | .pairCt _ | .textIn _ => false

/-- The locations whose writes are dropped while BUSY = 1 (R78). CTRL is not among them: only its soft reset is. -/
def droppedWhileBusy : Loc → Bool
  | .cmd | .key | .din | .textLen | .pairCount | .workers | .pairPt _ | .pairCt _ | .textIn _ => true
  | .capNw | .capPairDepth | .capTextDepth | .ctrl | .status | .errInfo | .dout | .workersEff | .matchCount | .elapsed
  | .matchKey _ | .matchMap _ | .textOut _ => false

/-- A legal read (R76, R77): an output location while BUSY = 1 gives a free value (log 6). -/
def readAccess (s : State) (l : Loc) : Word × State :=
  if s.status.busy && isOutput l then (Config.freeWord s.draws, { s with draws := s.draws + 1 })
  else (readLoc s l, s)

/-- A write of `v` to CTRL (R24, R78, R302): the soft reset is performed while BUSY = 0 and dropped while BUSY = 1. -/
def writeCtrl (s : State) (v : Word) : State :=
  if v.getLsbD 1 then
    if s.status.busy then { s with ctrl := { irqEn := v.getLsbD 0 }, status := s.status.markDropped } else softReset s
  else { s with ctrl := { irqEn := v.getLsbD 0 } }

/-- A write that is not dropped: what it stores or starts (R25, R27, R29 to R34, R38, R39); a read-only location ignores
it (R75). -/
def writeLoc (s : State) (v : Word) : Loc → State
  | .ctrl => writeCtrl s v
  | .cmd => accept v s
  | .status => { s with status := s.status.clear v }
  | .key => { s with key := v }
  | .din => { s with din := v }
  | .textLen => { s with textLen := v }
  | .pairCount => { s with pairCount := v }
  | .workers => { s with workersReq := v }
  | .pairPt i => { s with ram := setWord s.ram (pairPtOff i) v }
  | .pairCt i => { s with ram := setWord s.ram (pairCtOff i) v }
  | .textIn i => { s with ram := setWord s.ram (textInOff i) v }
  | .capNw | .capPairDepth | .capTextDepth | .errInfo | .dout | .workersEff | .matchCount | .elapsed | .matchKey _
  | .matchMap _ | .textOut _ => s

/-- A legal write (R75, R78, R81). While `rst` is asserted the core is in its reset state, whatever is written
(70_reset_and_hazards.md R300; log 20). -/
def writeAccess (s : State) (l : Loc) (v : Word) : State :=
  if s.rst then s
  else if s.status.busy && droppedWhileBusy l then { s with status := s.status.markDropped } else writeLoc s v l

/-- MemRead(addr, size) (R72 to R77): the response and the state after it. -/
def memRead (s : State) (size addr : Nat) : BusResponse × State :=
  match target s.cfg size addr with
  | some l => (.data (readAccess s l).1, (readAccess s l).2)
  | none => (.busError, s)

/-- MemWrite(addr, size, v) (R72 to R78): the response and the state after it. -/
def memWrite (s : State) (size addr : Nat) (v : Word) : BusResponse × State :=
  match target s.cfg size addr with
  | some l => (.written, writeAccess s l v)
  | none => (.busError, s)

end Sys2Proof.Machine
end

