-- ==== Sys2Proof/Machine/Block.lean ====
section
/-! DEFINITION. ENC_BLOCK and DEC_BLOCK (43_block_cipher.md R203, R204). -/

namespace Sys2Proof.Machine

/-- The block commands' shared rule: check DIN and KEY, then DOUT <- cipher(DIN, KEY) and commit. -/
def blockCommand (cipher : Byte → MasterKey → Byte) (s : State) : State :=
  checked (blockError s) (fun s => commitOk { s with dout := cipher (blockOf s.din) (masterKey s) }) s

/-- ENC_BLOCK (R203). -/
def execEncBlock (s : State) : Host.Outcome State Fault Refusal := .next (blockCommand encrypt8 s)

/-- DEC_BLOCK (R204). -/
def execDecBlock (s : State) : Host.Outcome State Fault Refusal := .next (blockCommand decrypt8 s)

end Sys2Proof.Machine
end

