-- ==== Sys2Proof/Machine/Search.lean ====
section
/-! DEFINITION. SEARCH (44_bruteforce.md): validation and launch by the sequencer, the workers' steps, the merge, the join. -/

namespace Sys2Proof.Machine

/-- W_eff = min(max(sext(WORKERS), 1), NW) (R232). -/
def clampWorkers (nw : Nat) (workersReq : Word) : Nat := min (max workersReq.toInt 1).toNat nw

/-- W_eff of a state: WORKERS is stable while a command runs (20_memory.md R78), so it is not kept (log 18). -/
def effWorkers (s : State) : Nat := clampWorkers s.cfg.nw s.workersReq

/-- chunk = ceil(1024 / W) (R233). -/
def chunkSize (w : Nat) : Nat := (1024 + w - 1) / w

/-- lo(w) = min(1024, w · chunk) (R233). -/
def rangeLo (weff w : Nat) : Nat := min 1024 (w * chunkSize weff)

/-- hi(w) = min(1024, (w + 1) · chunk) (R233). -/
def rangeHi (weff w : Nat) : Nat := min 1024 ((w + 1) * chunkSize weff)

/-- Worker `w` as launch leaves it (R234): the first W workers are launched, the others stay as they are. -/
def launchWorker (weff w : Nat) (x : Worker) : Worker :=
  if w < weff then { phase := .run, lo := rangeLo weff w, hi := rangeHi weff w, k := rangeLo weff w, lbuf := 0 } else x

/-- launch(W) (R234). -/
def launch (s : State) : State :=
  { s with
    aggMap := 0
    lock := .free
    workers := s.workers.mapIdx (launchWorker (effWorkers s))
    phase := .searchRun }

/-- SEARCH's sequencer step (R230): validate, and then launch. The workers' steps and the join follow (log 16). -/
def execSearch (s : State) : Host.Outcome State Fault Refusal := .next (checked (searchError s) launch s)

/-- MATCHES(k) (R235): every supplied pair's plaintext encrypts to its ciphertext under key k. -/
def matchesKey (s : State) (k : Nat) : Bool :=
  (List.range s.pairCount.toNat).all fun p =>
    encrypt8 (blockOf (pairPt s p)) (BitVec.ofNat 10 k) == blockOf (pairCt s p)

/-- The set with key k added. -/
def addKey (m : KeySet) (k : Nat) : KeySet := m ||| ((1 : KeySet) <<< k)

/-- Worker test step (R236). -/
def testStep (s : State) (x : Worker) : Worker :=
  { x with lbuf := if matchesKey s x.k then addKey x.lbuf x.k else x.lbuf, k := x.k + 1 }

/-- Merge step (R244), one atomic step: LOCK is FREE before and after it (10_state.md R45; log 17). -/
def mergeStep (s : State) (w : Nat) (x : Worker) : State :=
  { s with aggMap := s.aggMap ||| x.lbuf, lock := .free, workers := s.workers.set w { x with phase := .merged } }

/-- Worker w's move, `none` when it has no enabled step: test (R236), range end (R237) or merge (R244). A running worker
past its range has none (log 26). -/
def workerMove (w : Nat) (s : State) : Option State :=
  match s.workers[w]? with
  | none => none
  | some x =>
    match x.phase with
    | .run =>
      if x.k < x.hi then some { s with workers := s.workers.set w (testStep s x) }
      else if x.k = x.hi then some { s with workers := s.workers.set w { x with phase := .mergePending } }
      else none
    | .mergePending => if s.lock = .free then some (mergeStep s w x) else none
    | .idle => none
    | .merged => none

/-- Worker w is MERGED. -/
def isMerged (s : State) (w : Nat) : Bool :=
  match s.workers[w]? with
  | none => false
  | some x => decide (x.phase = .merged)

/-- Every launched worker is MERGED: the join's condition (R245). -/
def allMerged (s : State) : Bool := (List.range (effWorkers s)).all (isMerged s)

/-- Join and commit (R245): the candidate set, W_eff and a free ELAPSED (R253; log 7), and the successful commit. -/
def join (s : State) : State :=
  commitOk { s with
    matchMap := s.aggMap
    workersEff := BitVec.ofNat 32 (effWorkers s)
    elapsed := Config.freeWord s.draws
    draws := s.draws + 1
    workers := s.workers.mapIdx fun w x => if w < effWorkers s then { x with phase := .idle } else x }

end Sys2Proof.Machine
end

