-- ==== Sys2Proof/Machine/Text.lean ====
section
/-! DEFINITION. ENC_TEXT and DEC_TEXT (43_block_cipher.md R207 to R209). -/

namespace Sys2Proof.Machine

/-- The RAM with TEXT_OUT[i] <- cipher(TEXT_IN[i], KEY) for each i < n, in ascending order (R208). The inputs are those
of `s`: no unit depends on another. Entries from n on are unchanged (10_state.md R40). -/
def writeUnits (cipher : Byte → MasterKey → Byte) (s : State) (n : Nat) : List Host.Cell :=
  (List.range n).foldl (fun m i => setByte m (textOutOff i) (cipher (blockOf (textIn s i)) (masterKey s))) s.ram

/-- The text commands' shared rule: check TEXT_LEN, the units and KEY, then write TEXT_OUT[0 .. TEXT_LEN-1] and commit. -/
def textCommand (cipher : Byte → MasterKey → Byte) (s : State) : State :=
  checked (textError s) (fun s => commitOk { s with ram := writeUnits cipher s s.textLen.toNat }) s

/-- ENC_TEXT (R208). -/
def execEncText (s : State) : Host.Outcome State Fault Refusal := .next (textCommand encrypt8 s)

/-- DEC_TEXT (R209). -/
def execDecText (s : State) : Host.Outcome State Fault Refusal := .next (textCommand decrypt8 s)

end Sys2Proof.Machine
end

