-- ==== Sys2Proof/Machine/Dispatch.lean ====
section
/-! DEFINITION. One arm per command: the sequencer's step for the accepted command (30_encoding.md R111). -/

namespace Sys2Proof.Machine

def exec (i : Instr) (s : State) : Host.Outcome State Fault Refusal :=
  match i with
  | .encBlock => Sys2Proof.Machine.execEncBlock s
  | .decBlock => Sys2Proof.Machine.execDecBlock s
  | .encText => Sys2Proof.Machine.execEncText s
  | .decText => Sys2Proof.Machine.execDecText s
  | .search => Sys2Proof.Machine.execSearch s

end Sys2Proof.Machine
end

