-- ==== Sys2Proof/Machine/Agents.lean ====
section
/-! DEFINITION. The moves of HOST and SEQ, and which agent moves next (00_scope.md R13, 44_bruteforce.md R247). A move is
`none` when the agent has no enabled step. -/

namespace Sys2Proof.Machine

/-- SEQ's move (30_encoding.md R111, 44_bruteforce.md R245): run the accepted command, commit an illegal one, or join a
SEARCH whose launched workers are all MERGED. -/
def seqMove (s : State) : Option (Host.Outcome State Fault Refusal) :=
  match s.phase with
  | .idle => none
  | .exec =>
    match s.op with
    | .cmd i => some (exec i s)
    | .illegal why => some (.next (commitError (illegalSubCause why, 0) s))
  | .searchRun => if allMerged s then some (.next (join s)) else none

/-- The HOST agent after one access: its response, and the statement after it. -/
def HostAgent.answer (h : HostAgent) (r : BusResponse) : HostAgent := { h with pc := h.pc + 1, resp := r }

/-- The HOST agent after `RD … -> name` (30_encoding.md R116): a bus error "returns no data" and binds nothing. -/
def HostAgent.bind (h : HostAgent) (name : Nat) (r : BusResponse) : HostAgent :=
  match r with
  | .data v => { h.answer r with names := cellSet h.names name v }
  | .none => h.answer r
  | .written => h.answer r
  | .busError => h.answer r

/-- The state with the HOST agent at statement `pc`. -/
def hostGoto (s : State) (pc : Nat) : State := { s with host := { s.host with pc := pc } }

/-- BNE (R116): go to the label if (name & mask) ≠ value; to its first place if it stands twice (`labelIndex`; log 28). -/
def hostBranch (s : State) (name : Nat) (mask value : Word) (l : Nat) : Host.Outcome State Fault Refusal :=
  match cellGet s.host.names name with
  | none => .fault (.hostNameUnbound name)
  | some v =>
    if v &&& mask = value then .next (hostGoto s (s.host.pc + 1))
    else match labelIndex s.host.prog l with
      | none => .fault (.hostLabelMissing l)
      | some i => .next (hostGoto s i)

/-- A read by the HOST agent, its response kept in a name or not. -/
def hostRead (s : State) (size addr : Nat) (name : Option Nat) : State :=
  let a := memRead s size addr
  match name with
  | some n => { a.2 with host := s.host.bind n a.1 }
  | none => { a.2 with host := s.host.answer a.1 }

/-- A write by the HOST agent. -/
def hostWrite (s : State) (size addr : Nat) (v : Word) : State :=
  let a := memWrite s size addr v
  { a.2 with host := s.host.answer a.1 }

/-- The HOST agent makes an access at an address, or gets a bus error where there is none (R116; log 27). -/
def hostAccess (s : State) (address : Option Nat) (access : Nat → State) : State :=
  match address with
  | some a => access a
  | none => { s with host := s.host.answer .busError }

/-- One statement of the HOST agent's program (R116; the raw accesses R72, R73; the reset input R300). -/
def hostStmt (s : State) : HostStmt → Host.Outcome State Fault Refusal
  | .wr loc imm => .next (hostAccess s (loc.address s.cfg) fun a => hostWrite s 4 a imm)
  | .rd loc name => .next (hostAccess s (loc.address s.cfg) fun a => hostRead s 4 a (some name))
  | .label _ => .next (hostGoto s (s.host.pc + 1))
  | .bne name mask value l => hostBranch s name mask value l
  | .rawRead size addr => .next (hostRead s size addr none)
  | .rawWrite size addr v => .next (hostWrite s size addr v)
  | .rst asserted => .next (hostGoto (driveRst s asserted) (s.host.pc + 1))

/-- HOST's move: the statement it stands at; `none` past the end of its program. -/
def hostMove (s : State) : Option (Host.Outcome State Fault Refusal) :=
  match s.host.prog[s.host.pc]? with
  | none => none
  | some st => some (hostStmt s st)

/-- An agent's move (R13). -/
def agentMove (a : Agent) (s : State) : Option (Host.Outcome State Fault Refusal) :=
  match a with
  | .host => hostMove s
  | .seq => seqMove s
  | .worker w => (workerMove w s).map .next

/-- The agents of a core, in a fixed order. -/
def agentsOf (s : State) : List Agent := .host :: .seq :: (List.range s.workers.length).map .worker

/-- The agent that moves: the granted one if it has an enabled step, else the first that has (log 11). `none` when no
agent has: the core is idle, "with nothing to wake" (60_exceptions.md R290; log 22). -/
def chosenAgent (s : State) : Option Agent :=
  if (agentMove s.grant s).isSome then some s.grant
  else (agentsOf s).find? fun a => (agentMove a s).isSome

/-- The agent a free number stands for. -/
def agentOfNat : Nat → Agent
  | 0 => .host
  | 1 => .seq
  | n + 2 => .worker n

/-- After a move the next one is offered to a free agent: the spec fixes no order (R247, D27; log 11). -/
def regrant (s : State) : State :=
  { s with turn := s.turn + 1, grant := agentOfNat (Config.freeTurn s.turn) }

end Sys2Proof.Machine
end

