-- ==== Sys2Proof/Machine/Step.lean ====
section
/-! DEFINITION. One step of the machine: one move of one agent. -/

namespace Sys2Proof.Machine

/-- The chosen agent makes its move, and the next move is offered anew. When no agent has an enabled step the state
stays as it is (60_exceptions.md R290: "All state is kept while idle"). -/
def step (s : State) : Host.Outcome State Fault Refusal :=
  match chosenAgent s with
  | none => .next s
  | some a =>
    match agentMove a s with
    | none => .next s
    | some o => mapNext regrant o

/-- `s` with the opcode table's word `w` accepted as a command word (30_encoding.md R110) and the next move offered to
the sequencer, so that the very next step runs it. The core fetches no instructions (20_memory.md R86): acceptance is
what puts a command where the sequencer takes it from, and a core accepts one only while `rst` is released (log 15). -/
def State.withFetchWord (s : State) (nbits w : Nat) : State :=
  { accept (tableWord nbits w) s with rst := false, grant := .seq }

end Sys2Proof.Machine
end

