-- ==== Sys2Proof/Safety.lean ====
section
/-! DEFINITION. What claims are stated in: runs of agents in any order, the clean-entry state, the state invariant, and the
number of moves a command still takes. -/

namespace Sys2Proof.Machine

/-- The moves of a list of agents, in that order; `none` when one of them has no enabled step or stops. Every schedule of
44_bruteforce.md R247 is such a list. -/
def runAgents : List Agent → State → Option State
  | [], s => some s
  | a :: as, s =>
    match agentMove a s with
    | some (.next t) => runAgents as t
    | _ => none

/-- n steps of the machine, stopping at the first stop. -/
def runSteps : Nat → State → Host.Outcome State Fault Refusal
  | 0, s => .next s
  | n + 1, s =>
    match step s with
    | .next t => runSteps n t
    | .fault r => .fault r
    | .refused r => .refused r

/-- The agents of the core: all but HOST (R13). -/
def Agent.isCore : Agent → Bool
  | .host => false
  | .seq => true
  | .worker _ => true

/-- The clean-entry state of 70_reset_and_hazards.md R305. -/
def cleanEntry (s : State) : Prop :=
  s.status.busy = false ∧ s.status.dropped = false ∧ s.phase = .idle ∧ (∀ x ∈ s.workers, x.phase = .idle) ∧ s.lock = .free

/-- The state a hardware reset leaves (70_reset_and_hazards.md R300, 10_state.md section 2): every register at its reset
value, no RAM byte written since, and the sequencer, the workers and LOCK at rest. What R300 leaves unspecified is free. -/
def inReset (s : State) : Prop :=
  s.ctrl = { irqEn := false } ∧ s.status = Status.reset ∧ s.errInfo = ErrInfo.zero ∧ s.key = 0 ∧ s.din = 0 ∧ s.dout = 0 ∧
  s.textLen = 0 ∧ s.pairCount = 0 ∧ s.workersReq = 0 ∧ s.workersEff = 0 ∧ s.elapsed = 0 ∧ s.matchMap = 0 ∧ s.ram = [] ∧
  s.phase = .idle ∧ (∀ x ∈ s.workers, x.phase = .idle) ∧ s.lock = .free

/-- A state whose running command has just ended with this outcome, and in which nothing else has changed
(30_encoding.md R112, R113). -/
def committedWith (s : State) (kind : ErrKind) (sub : SubCause) (index : BitVec 16) : State :=
  { s with
    status := { s.status with busy := false, done := true, errCode := kind }
    errInfo := { subcause := sub, index := index }
    phase := .idle }

/-- The read-only locations of 20_memory.md R75. -/
def readOnly : Loc → Prop
  | .capNw | .capPairDepth | .capTextDepth | .errInfo | .dout | .workersEff | .matchCount | .elapsed | .matchKey _
  | .matchMap _ | .textOut _ => True
  | .ctrl | .cmd | .status | .key | .din | .textLen | .pairCount | .workers | .pairPt _ | .pairCt _ | .textIn _ => False

/-- The operand locations, RW to the host and never written by a command (10_state.md R29 to R34, R38, R39). -/
def operandLoc : Loc → Prop
  | .key | .din | .textLen | .pairCount | .workers | .pairPt _ | .pairCt _ | .textIn _ => True
  | .capNw | .capPairDepth | .capTextDepth | .ctrl | .cmd | .status | .errInfo | .dout | .workersEff | .matchCount
  | .elapsed | .matchKey _ | .matchMap _ | .textOut _ => False

/-- Everything a command reads is the same in two states: the parameters, the operand registers and the RAM (R104). -/
def sameInputs (s t : State) : Prop :=
  t.cfg = s.cfg ∧ t.key = s.key ∧ t.din = s.din ∧ t.textLen = s.textLen ∧ t.pairCount = s.pairCount ∧
  t.workersReq = s.workersReq ∧ t.ram = s.ram ∧ t.ramEpoch = s.ramEpoch

/-- Everything a SEARCH reads is the same in two states: the parameters, PAIR_COUNT, WORKERS and the pairs below
PAIR_COUNT (30_encoding.md R104). -/
def sameSearchInputs (s t : State) : Prop :=
  t.cfg = s.cfg ∧ t.pairCount = s.pairCount ∧ t.workersReq = s.workersReq ∧
  ∀ p < s.pairCount.toNat, pairPt t p = pairPt s p ∧ pairCt t p = pairCt s p

/-- Everything a text command reads is the same in two states: the parameters, KEY, TEXT_LEN and the units below TEXT_LEN
(30_encoding.md R104). -/
def sameTextInputs (s t : State) : Prop :=
  t.cfg = s.cfg ∧ t.key = s.key ∧ t.textLen = s.textLen ∧ ∀ i < s.textLen.toNat, textIn t i = textIn s i

/-- The SEARCH in progress is the same in two states: its workers, AGG_MAP and LOCK. -/
def sameProgress (s t : State) : Prop := t.workers = s.workers ∧ t.aggMap = s.aggMap ∧ t.lock = s.lock

/-- A byte offset is one of the RAM windows' bytes that have storage (10_state.md R38 to R40). -/
def inRam (c : Config) (a : Nat) : Prop :=
  (0x01000 ≤ a ∧ a < 0x01000 + 8 * c.pairDepth) ∨ (0x40000 ≤ a ∧ a < 0x40000 + 4 * c.textDepth) ∨
  (0x80000 ≤ a ∧ a < 0x80000 + 4 * c.textDepth ∧ a % 4 = 0)

/-- Worker `w` during a SEARCH: a launched one scans its own range upwards and its LBUF holds exactly the matching keys
it has tested (44_bruteforce.md R233 to R237); the others are IDLE. -/
def workerOk (s : State) (w : Nat) (x : Worker) : Prop :=
  if w < effWorkers s then
    x.lo = rangeLo (effWorkers s) w ∧ x.hi = rangeHi (effWorkers s) w ∧ x.lo ≤ x.k ∧ x.k ≤ x.hi ∧ x.phase ≠ .idle ∧
    (x.phase ≠ .run → x.k = x.hi) ∧
    ∀ k < 1024, x.lbuf.getLsbD k = (decide (x.lo ≤ k ∧ k < x.k) && matchesKey s k)
  else x.phase = .idle

/-- AGG_MAP during a SEARCH: the union of the batches merged so far (R244). -/
def aggOk (s : State) : Prop :=
  ∀ k < 1024, s.aggMap.getLsbD k = true ↔
    ∃ w x, w < effWorkers s ∧ s.workers[w]? = some x ∧ x.phase = .merged ∧ x.lbuf.getLsbD k = true

/-- What every step keeps. -/
structure Inv (s : State) : Prop where
  /-- The parameters are in their legal ranges (00_scope.md R7). -/
  cfgWf : s.cfg.wf = true
  /-- Memory is canonical. -/
  ramWf : Memory.wf s.ram
  /-- Memory holds bytes of the RAM windows only. -/
  ramMapped : ∀ x ∈ s.ram, inRam s.cfg x.1
  /-- "STATUS.BUSY = 1 exactly when SEQ.phase ≠ IDLE" (10_state.md R43). -/
  busyIff : s.status.busy = true ↔ s.phase ≠ .idle
  /-- "BUSY = 1 implies DONE = 0, and BUSY = 1 implies ERR_CODE = 0" (R26). -/
  busyClear : s.status.busy = true → s.status.done = false ∧ s.status.errCode = .none
  /-- ERR_INFO.SUBCAUSE belongs to ERR_CODE once a command has committed (R28, 60_exceptions.md R271). -/
  errInfoKind : s.status.busy = false → s.errInfo.subcause.kind = s.status.errCode
  /-- ERR_CODE 3 and sub-cause 11 are never produced (R276). -/
  noProgrammingError : s.status.errCode ≠ .programmingError ∧ s.errInfo.subcause ≠ .tableIndex
  /-- There are NW workers (60_exceptions.md R288). -/
  workerCount : s.workers.length = s.cfg.nw
  /-- LOCK is FREE between moves (10_state.md R45). -/
  lockFree : s.lock = .free
  /-- Only a SEARCH uses the workers (60_exceptions.md R288). -/
  workersIdle : s.phase ≠ .searchRun → ∀ x ∈ s.workers, x.phase = .idle
  /-- A launched SEARCH: its pairs passed validate(), its workers and AGG_MAP are as the workers' steps leave them. -/
  searching : s.phase = .searchRun →
    searchError s = none ∧ (∀ w x, s.workers[w]? = some x → workerOk s w x) ∧ aggOk s
  /-- "While the reset input rst is asserted ... the core takes this state" (R300). -/
  held : s.rst = true → inReset s

/-- Moves a worker still makes in its SEARCH: tests, range end and merge (R236, R237, R244). -/
def workerWork (x : Worker) : Nat :=
  match x.phase with
  | .idle => 0
  | .run => (x.hi - x.k) + 2
  | .mergePending => 1
  | .merged => 0

/-- A bound on the moves SEQ and the workers make between an acceptance and its commit (30_encoding.md R114). -/
def commitBound (nw : Nat) : Nat := 1026 + 2 * nw

end Sys2Proof.Machine
end

