-- ==== Sys2Proof/Certificates/Slice0/Obligations.lean ====
section
/-! DEFINITION. The statements for the provers, in the order of spec/'s files. Each is a rule of spec/, or follows from its
sections, as OBLIGATIONS.json says. Statements over every state hold for every value of the parameters and of the free
values. -/

open Sys2Proof Sys2Proof.Machine

/-! ### 40_permutation.md, 41_key_schedule.md, 42_round_function.md, 43_block_cipher.md section 1 -/

/-- The six wirings in the register form of R141 to R146: the i-th listed input bit drives the i-th output bit from the
left; and every table entry is a position of its input (R147). -/
def Obligations.PermutationsAreTheListedWirings : Prop :=
  (∀ s : BitVec 10, ∀ i : Fin 10, (permP10 s).getLsbD (9 - i) = s.getLsbD ([7, 5, 8, 3, 6, 0, 9, 1, 2, 4].getD i 0)) ∧
  (∀ s : BitVec 10, ∀ i : Fin 8, (permP8 s).getLsbD (7 - i) = s.getLsbD ([4, 7, 3, 6, 2, 5, 0, 1].getD i 0)) ∧
  (∀ s : BitVec 8, ∀ i : Fin 8, (permIP s).getLsbD (7 - i) = s.getLsbD ([6, 2, 5, 7, 4, 0, 3, 1].getD i 0)) ∧
  (∀ s : BitVec 8, ∀ i : Fin 8, (permIPINV s).getLsbD (7 - i) = s.getLsbD ([4, 7, 5, 3, 1, 6, 0, 2].getD i 0)) ∧
  (∀ s : BitVec 4, ∀ i : Fin 8, (permEP s).getLsbD (7 - i) = s.getLsbD ([0, 3, 2, 1, 2, 1, 0, 3].getD i 0)) ∧
  (∀ s : BitVec 4, ∀ i : Fin 4, (permP4 s).getLsbD (3 - i) = s.getLsbD ([2, 0, 1, 3].getD i 0)) ∧
  (tableWf 10 tableP10 ∧ tableWf 10 tableP8 ∧ tableWf 8 tableIP ∧ tableWf 8 tableIPINV ∧ tableWf 4 tableEP ∧
    tableWf 4 tableP4)

/-- R148: IPINV and IP are inverse to each other. -/
def Obligations.InitialAndFinalPermutationsAreInverse : Prop :=
  ∀ s : BitVec 8, permIPINV (permIP s) = s ∧ permIP (permIPINV s) = s

/-- R160 and R162 worked out to master-key positions: which register bit of KEY each bit of K1 and K2 is. The last clause
is the vector of R162: the cumulative form's K2 is not this hardware's. -/
def Obligations.SubkeysAreTheListedKeyBits : Prop :=
  (∀ k : MasterKey, ∀ i : Fin 8,
    (genSubkeys k).1.getLsbD (7 - i) = k.getLsbD ([9, 3, 1, 6, 2, 7, 0, 4].getD i 0)) ∧
  (∀ k : MasterKey, ∀ i : Fin 8,
    (genSubkeys k).2.getLsbD (7 - i) = k.getLsbD ([1, 6, 2, 7, 4, 5, 9, 0].getD i 0)) ∧
  genSubkeys 0x282 = (0xA4, 0x92) ∧ (genSubkeys 0x282).2 ≠ 0x43

/-- R163: key position 2 (KEY[8]) never reaches a subkey, and it is the only such position: two keys have the same
subkeys exactly when they are equal or differ in that bit alone, so there are exactly 512 subkey pairs. -/
def Obligations.OnlyKeyPositionTwoIsUnused : Prop :=
  ∀ k l : MasterKey, genSubkeys k = genSubkeys l ↔ k = l ∨ k = l ^^^ 0x100

/-- R180 and 20_memory.md R90: the two S-box ROMs, word by word, and R181's row and column of a segment. -/
def Obligations.SboxRomsHoldTheListedWords : Prop :=
  (sboxS1 = [[1, 0, 3, 2], [3, 2, 1, 0], [0, 2, 1, 3], [3, 1, 0, 2]]) ∧
  (sboxS2 = [[0, 1, 2, 3], [2, 3, 1, 0], [3, 0, 1, 2], [2, 1, 0, 3]]) ∧
  ((List.range 16).map (romWord sboxS1) = [1, 0, 3, 2, 3, 2, 1, 0, 0, 2, 1, 3, 3, 1, 0, 2]) ∧
  ((List.range 16).map (romWord sboxS2) = [0, 1, 2, 3, 2, 3, 1, 0, 3, 0, 1, 2, 2, 1, 0, 3]) ∧
  (∀ g : Nibble, sboxRow g = 2 * (g.getLsbD 3).toNat + (g.getLsbD 0).toNat ∧
    sboxCol g = 2 * (g.getLsbD 2).toNat + (g.getLsbD 1).toNat) ∧
  (∀ g : Nibble, sbox sboxS1 g = (sboxS1.getD (sboxRow g) []).getD (sboxCol g) 0 ∧
    sbox sboxS2 g = (sboxS2.getD (sboxRow g) []).getD (sboxCol g) 0)

/-- R205: decryption undoes encryption and the other way round, for any S-box contents; and so DEC_BLOCK after ENC_BLOCK
on the same KEY, with DIN set to the first DOUT, returns the first DIN. -/
def Obligations.DecryptionUndoesEncryption : Prop :=
  (∀ sx sy b ka kb, feistelWith sx sy (feistelWith sx sy b ka kb) kb ka = b) ∧
  (∀ b k, decrypt8 (encrypt8 b k) k = b ∧ encrypt8 (decrypt8 b k) k = b) ∧
  (∀ s t u v : State, s.din.toNat < 256 → s.key.toNat < 1024 → exec .encBlock s = .next t →
    u.key = s.key → u.din = t.dout.setWidth 32 → exec .decBlock u = .next v → v.dout.setWidth 32 = s.din)

/-! ### 30_encoding.md: the command word -/

/-- Words written out from R103's table and R105's and R106's examples, and what they decode to. -/
def Obligations.WrittenOutWordsDecode : Prop :=
  decode 0x00000001 = .cmd .encBlock ∧ decode 0x00000002 = .cmd .decBlock ∧ decode 0x00000003 = .cmd .encText ∧
  decode 0x00000004 = .cmd .decText ∧ decode 0x00000005 = .cmd .search ∧ decode 0x00000000 = .illegal .opReserved ∧
  decode 0x0000000F = .illegal .opReserved ∧ decode 0x00000011 = .illegal .reservedBits ∧
  decode 0x80000001 = .illegal .reservedBits

/-- R107: the decode function on every 32-bit word, test by test in its order. -/
def Obligations.DecodeIsTheListedFunction : Prop :=
  ∀ c : Word,
    (c.toNat / 16 ≠ 0 → decode c = .illegal .reservedBits) ∧
    (c.toNat / 16 = 0 → c.toNat % 16 = 1 → decode c = .cmd .encBlock) ∧
    (c.toNat / 16 = 0 → c.toNat % 16 = 2 → decode c = .cmd .decBlock) ∧
    (c.toNat / 16 = 0 → c.toNat % 16 = 3 → decode c = .cmd .encText) ∧
    (c.toNat / 16 = 0 → c.toNat % 16 = 4 → decode c = .cmd .decText) ∧
    (c.toNat / 16 = 0 → c.toNat % 16 = 5 → decode c = .cmd .search) ∧
    (c.toNat / 16 = 0 → c.toNat % 16 = 0 ∨ 6 ≤ c.toNat % 16 → decode c = .illegal .opReserved)

/-- Decode and encode agree: a word decodes to a command exactly when it is that command's encoding, and the words that
decode to some command are the well-formed ones. -/
def Obligations.DecodeAndEncodeAgree : Prop :=
  (∀ i : Instr, i.wf = true → decode (encode i) = .cmd i) ∧
  (∀ (c : Word) (i : Instr), decode c = .cmd i ↔ c = encode i) ∧
  (∀ c : Word, commandWordWf c = true ↔ ∃ i, decode c = .cmd i)

/-! ### 20_memory.md: the host register space -/

/-- The address map of R71 both ways: every location of the core is found at its offset, and what is found at a word
offset is a location of the core that stands there. -/
def Obligations.AddressMapRoundTrip : Prop :=
  ∀ c : Config, c.wf = true →
    (∀ l : Loc, l.present c = true → locate c l.offset = some l ∧ l.offset % 4 = 0 ∧ l.offset < 2 ^ 20) ∧
    (∀ (off : Nat) (l : Loc), off % 4 = 0 → locate c off = some l → l.present c = true ∧ l.offset = off)

/-- R73 and R74: an access of a size other than 4, misaligned, or to no location of the core gets a bus error and changes
nothing; that an address outside the core's 2^20 bytes is one of them is the model's choice (log 2). A statement of the host
that names an entry at or past its window's depth gets a bus error too, and only the HOST agent goes on: which address such a
name stands for the spec does not say, so that too is the model's choice (log 27). -/
def Obligations.BusErrorsChangeNothing : Prop :=
  (∀ (s : State) (size addr : Nat) (v : Word), s.cfg.wf = true →
    (size ≠ 4 ∨ addr % 4 ≠ 0 ∨ ∀ l : Loc, l.present s.cfg = true → addr ≠ s.cfg.base + l.offset) →
    memRead s size addr = (.busError, s) ∧ memWrite s size addr v = (.busError, s)) ∧
  (∀ (s : State) (l : Loc) (imm : Word) (name : Nat), l.present s.cfg = false →
    hostStmt s (.wr (.named l) imm) = .next { s with host := { s.host with pc := s.host.pc + 1, resp := .busError } } ∧
    hostStmt s (.rd (.named l) name) = .next { s with host := { s.host with pc := s.host.pc + 1, resp := .busError } })

/-- R76 and R77: a legal read answers what its location holds and changes nothing; while BUSY = 1 a read of an output
location answers some word instead and changes nothing but the model's own count of draws (log 6). What each register holds
(10_state.md R21 to R35, R37, R40): CMD reads 0, the capability registers read the parameters, and the bits above a narrower
register's own, DOUT's and TEXT_OUT's 31:8, read 0. -/
def Obligations.ReadsHaveNoSideEffects : Prop :=
  (∀ (s : State) (l : Loc), s.cfg.wf = true → l.present s.cfg = true →
    (s.status.busy = false ∨ isOutput l = false →
      memRead s 4 (s.cfg.base + l.offset) = (.data (readLoc s l), s)) ∧
    (s.status.busy = true → isOutput l = true →
      ∃ v, memRead s 4 (s.cfg.base + l.offset) = (.data v, { s with draws := s.draws + 1 }))) ∧
  (∀ s : State, s.cfg.wf = true →
    ((readLoc s .capNw).toNat = s.cfg.nw ∧ (readLoc s .capPairDepth).toNat = s.cfg.pairDepth ∧
      (readLoc s .capTextDepth).toNat = s.cfg.textDepth) ∧
    (readLoc s .ctrl = s.ctrl.word ∧ readLoc s .cmd = 0 ∧ readLoc s .status = s.status.word ∧
      readLoc s .errInfo = s.errInfo.word) ∧
    (readLoc s .key = s.key ∧ readLoc s .din = s.din ∧ readLoc s .textLen = s.textLen ∧
      readLoc s .pairCount = s.pairCount ∧ readLoc s .workers = s.workersReq) ∧
    (readLoc s .dout = (0 : BitVec 24) ++ s.dout ∧ readLoc s .workersEff = s.workersEff ∧
      readLoc s .elapsed = s.elapsed) ∧
    ∀ i, readLoc s (.textOut i) = (0 : BitVec 24) ++ ramByte s (0x80000 + 4 * i))

/-- R75: a legal write to a read-only location is ignored. -/
def Obligations.ReadOnlyWritesAreIgnored : Prop :=
  ∀ (s : State) (l : Loc) (v : Word), s.cfg.wf = true → l.present s.cfg = true → readOnly l →
    memWrite s 4 (s.cfg.base + l.offset) v = (.written, s)

/-- 10_state.md R29 to R34, R38, R39: while BUSY = 0 and `rst` is released a write to an operand location stores all 32
bits, they read back, every other location reads as before, and no other state changes. -/
def Obligations.OperandWritesReadBack : Prop :=
  ∀ (s : State) (l : Loc) (v : Word), s.cfg.wf = true → l.present s.cfg = true → operandLoc l → s.rst = false →
    s.status.busy = false →
    ∃ t, memWrite s 4 (s.cfg.base + l.offset) v = (.written, t) ∧ readLoc t l = v ∧
      (∀ l' : Loc, l'.present s.cfg = true → l' ≠ l → readLoc t l' = readLoc s l') ∧
      t.phase = s.phase ∧ t.op = s.op ∧ sameProgress s t ∧ t.cfg = s.cfg ∧ t.status = s.status ∧
      t.errInfo = s.errInfo ∧ t.ctrl = s.ctrl ∧ t.matchMap = s.matchMap ∧ t.ramEpoch = s.ramEpoch ∧ t.rst = s.rst ∧
      t.host = s.host ∧ t.draws = s.draws ∧ t.turn = s.turn ∧ t.grant = s.grant

/-- R78: while BUSY = 1 writes to CMD, the operand registers, the pair memory and TEXT_IN change nothing but set DROPPED;
a soft reset is dropped though IRQ_EN is written; a CTRL write without it and a STATUS write are never dropped. So no
access of the host changes what the running command reads or how far it has got. `rst` is released: while it is asserted
no command runs (HardwareResetState). -/
def Obligations.BusyWritesAreDropped : Prop :=
  ∀ s : State, s.cfg.wf = true → s.rst = false → s.status.busy = true →
    (∀ (l : Loc) (v : Word), l.present s.cfg = true → l = .cmd ∨ operandLoc l →
      memWrite s 4 (s.cfg.base + l.offset) v = (.written, { s with status := { s.status with dropped := true } })) ∧
    (∀ v : Word, v.getLsbD 1 = true → memWrite s 4 (s.cfg.base + 0x010) v =
      (.written, { s with ctrl := { irqEn := v.getLsbD 0 }, status := { s.status with dropped := true } })) ∧
    (∀ v : Word, v.getLsbD 1 = false → memWrite s 4 (s.cfg.base + 0x010) v =
      (.written, { s with ctrl := { irqEn := v.getLsbD 0 } })) ∧
    (∀ v : Word, memWrite s 4 (s.cfg.base + 0x018) v = (.written, { s with status := s.status.clear v })) ∧
    (∀ (st : HostStmt) (t : State), st ≠ .rst true → hostStmt s st = .next t →
      sameInputs s t ∧ t.phase = s.phase ∧ t.op = s.op ∧ t.workers = s.workers ∧ t.aggMap = s.aggMap ∧
      t.lock = s.lock ∧ t.status.busy = true)

/-! ### 10_state.md: status, views -/

/-- R26's table: where each field of STATUS stands in the word a read returns; ERR is ERR_CODE ≠ 0. -/
def Obligations.StatusWordLayout : Prop :=
  ∀ st : Status,
    st.word.getLsbD 0 = st.busy ∧ st.word.getLsbD 1 = st.done ∧ st.word.getLsbD 2 = decide (st.errCode ≠ .none) ∧
    st.word.getLsbD 3 = st.dropped ∧ st.word.extractLsb' 4 4 = st.errCode.code ∧
    st.word.extractLsb' 8 4 = st.lastOp ∧ st.word.extractLsb' 12 20 = 0 ∧
    ErrKind.none.code = 0 ∧ ErrKind.invalidInput.code = 1 ∧ ErrKind.illegalCmd.code = 2 ∧
    ErrKind.programmingError.code = 3

/-- R27: a write to STATUS clears DONE and DROPPED where the written bit is 1, ignores every other bit, is never dropped,
and changes nothing else; while BUSY = 1 only DROPPED can change. `rst` is released. -/
def Obligations.StatusWriteClearsItsFlags : Prop :=
  ∀ (s : State) (v : Word), s.cfg.wf = true → s.rst = false →
    memWrite s 4 (s.cfg.base + 0x018) v = (.written, { s with status := { s.status with
      done := if v.getLsbD 1 then false else s.status.done
      dropped := if v.getLsbD 3 then false else s.status.dropped } }) ∧
    (Inv s → s.status.busy = true → (s.status.clear v).done = s.status.done)

/-- R36, R41 and R42: bit b of MATCH_MAP[w] is key 32·w + b; MATCH_COUNT is the number of keys in the set, at most 1024;
MATCH_KEY[j] is the (j+1)-th smallest key of the set for j < MATCH_COUNT, that is, a key of the set with exactly j smaller
ones, and 0 from there on. The last clause says that these are what the three locations read. -/
def Obligations.MatchViewsListTheSetInOrder : Prop :=
  (∀ m : KeySet,
    matchCount m = ((List.range 1024).filter fun k => m.getLsbD k).length ∧ matchCount m ≤ 1024 ∧
    (∀ j < matchCount m, matchKey m j < 1024 ∧ m.getLsbD (matchKey m j) = true ∧
      ((List.range (matchKey m j)).countP fun k => m.getLsbD k) = j) ∧
    (∀ j, matchCount m ≤ j → matchKey m j = 0) ∧
    (∀ w b, w < 32 → b < 32 → (matchMapWord m w).getLsbD b = m.getLsbD (32 * w + b))) ∧
  (∀ s : State, (readLoc s .matchCount).toNat = matchCount s.matchMap ∧
    (∀ j, (readLoc s (.matchKey j)).toNat = matchKey s.matchMap j) ∧
    ∀ w, readLoc s (.matchMap w) = matchMapWord s.matchMap w)

/-! ### 30_encoding.md section 4: the lifecycle -/

/-- R110: acceptance of a command word, legal or not, as one step; the same write with BUSY = 1 is dropped. `rst` is
released: a core in reset accepts none (HardwareResetState). -/
def Obligations.AcceptanceStartsTheCommand : Prop :=
  ∀ (s : State) (c : Word), s.cfg.wf = true → s.rst = false →
    (s.status.busy = false → memWrite s 4 (s.cfg.base + 0x014) c = (.written, { s with
      status := { s.status with busy := true, done := false, errCode := .none, lastOp := c.extractLsb' 0 4 }
      op := decode c
      phase := .exec })) ∧
    (s.status.busy = true → memWrite s 4 (s.cfg.base + 0x014) c =
      (.written, { s with status := { s.status with dropped := true } }))

/-- R105 and R106: an accepted illegal word commits ILLEGAL_CMD with its sub-cause and has no other effect. -/
def Obligations.IllegalWordsCommitTheirError : Prop :=
  ErrKind.illegalCmd.code = 2 ∧ SubCause.cmdReservedBits.code = 10 ∧ SubCause.opReserved.code = 9 ∧
  ∀ (s : State) (c : Word),
    (accept c s).status.lastOp = c.extractLsb' 0 4 ∧
    (c.toNat / 16 ≠ 0 → seqMove (accept c s) =
      some (.next (committedWith (accept c s) .illegalCmd .cmdReservedBits 0))) ∧
    (c.toNat / 16 = 0 → c.toNat % 16 = 0 ∨ 6 ≤ c.toNat % 16 → seqMove (accept c s) =
      some (.next (committedWith (accept c s) .illegalCmd .opReserved 0)))

/-- A step runs the decoded command: when the sequencer is the agent that moves and the accepted word decodes to i, the
step is exec of i with the offer of the next move around it; and the step after `withFetchWord` is that of the word. The
offer (`regrant`, log 11) and `withFetchWord`, which offers the sequencer the move (log 15), are the model's choices. -/
def Obligations.StepRunsTheAcceptedCommand : Prop :=
  (∀ (s : State) (c : Word) (i : Instr), decode c = .cmd i → s.phase = .exec → s.op = decode c →
    chosenAgent s = some .seq → step s = mapNext regrant (exec i s)) ∧
  (∀ (s : State) (nbits w : Nat) (i : Instr), decodeTableWord nbits w = some i →
    step (s.withFetchWord nbits w) = mapNext regrant (exec i (s.withFetchWord nbits w)))

/-- Every command answers a next state: no command stops the machine. A block or text command commits in it. -/
def Obligations.EveryCommandAnswersANextState : Prop :=
  ∀ (i : Instr) (s : State), ∃ t, exec i s = .next t ∧
    (i ≠ .search → t.status.busy = false ∧ t.status.done = true ∧ t.phase = .idle)

/-! ### 43_block_cipher.md -/

/-- R203: ENC_BLOCK rejects DIN ≥ 256, then KEY ≥ 1024, and else writes DOUT and commits, changing nothing else; and the
rule's own examples. -/
def Obligations.EncBlockEncryptsOrRejects : Prop :=
  encode .encBlock = 0x00000001 ∧
  (∀ s : State,
    (256 ≤ s.din.toNat → exec .encBlock s = .next (committedWith s .invalidInput .dinRange 0)) ∧
    (s.din.toNat < 256 → 1024 ≤ s.key.toNat →
      exec .encBlock s = .next (committedWith s .invalidInput .keyRange 0)) ∧
    (s.din.toNat < 256 → s.key.toNat < 1024 → exec .encBlock s =
      .next { committedWith s .none .noError 0 with dout := encrypt8 (s.din.setWidth 8) (s.key.setWidth 10) })) ∧
  (∀ b, encrypt8 b 0x282 = encrypt8 b 0x382) ∧ encrypt8 0x00 0x000 = 0xF0 ∧ encrypt8 0xFF 0x3FF = 0x0F ∧
  encrypt8 0xA5 0x282 = 0x6E

/-- R204: DEC_BLOCK rejects as ENC_BLOCK does, and else writes DOUT and commits, changing nothing else; and the rule's own
examples and corner cases. -/
def Obligations.DecBlockDecryptsOrRejects : Prop :=
  encode .decBlock = 0x00000002 ∧
  (∀ s : State,
    (256 ≤ s.din.toNat → exec .decBlock s = .next (committedWith s .invalidInput .dinRange 0)) ∧
    (s.din.toNat < 256 → 1024 ≤ s.key.toNat →
      exec .decBlock s = .next (committedWith s .invalidInput .keyRange 0)) ∧
    (s.din.toNat < 256 → s.key.toNat < 1024 → exec .decBlock s =
      .next { committedWith s .none .noError 0 with dout := decrypt8 (s.din.setWidth 8) (s.key.setWidth 10) })) ∧
  (∀ b, decrypt8 b 0 = encrypt8 b 0 ∧ decrypt8 b 0x3FF = encrypt8 b 0x3FF) ∧ decrypt8 0x00 0x000 = 0xF0 ∧
  decrypt8 0x6E 0x282 = 0xA5 ∧ decrypt8 0xA5 0x282 = 0x5B

/-- R206: the outcome of a block command, and DOUT when it succeeds, are functions of DIN and KEY alone. -/
def Obligations.BlockCommandsDependOnDinAndKeyOnly : Prop :=
  ∀ (i : Instr) (s t s' t' : State), i = .encBlock ∨ i = .decBlock → s.din = t.din → s.key = t.key →
    exec i s = .next s' → exec i t = .next t' →
    s'.status.errCode = t'.status.errCode ∧ s'.errInfo = t'.errInfo ∧
    (s'.status.errCode = .none → s'.dout = t'.dout)

/-- R208: ENC_TEXT rejects TEXT_LEN > TEXT_DEPTH, then the lowest unit ≥ 256 with its index, then KEY ≥ 1024; else it
writes TEXT_OUT[0 .. TEXT_LEN-1], every other byte of memory reads as before, and it commits, changing nothing else.
TEXT_LEN = 0 changes no memory. The first clause after the encoding is the rule's own example. -/
def Obligations.EncTextEncryptsOrRejects : Prop :=
  encode .encText = 0x00000003 ∧
  (encrypt8 0x48 0x282 = 0xE4 ∧ encrypt8 0x69 0x282 = 0x83 ∧ encrypt8 0x21 0x282 = 0xAD) ∧
  ∀ s : State,
    (s.cfg.textDepth < s.textLen.toNat → exec .encText s = .next (committedWith s .invalidInput .textLenRange 0)) ∧
    (s.textLen.toNat ≤ s.cfg.textDepth → ∀ i < s.textLen.toNat, 256 ≤ (textIn s i).toNat →
      (∀ j < i, (textIn s j).toNat < 256) →
      exec .encText s = .next (committedWith s .invalidInput .textUnitRange (BitVec.ofNat 16 i))) ∧
    (s.textLen.toNat ≤ s.cfg.textDepth → (∀ i < s.textLen.toNat, (textIn s i).toNat < 256) → 1024 ≤ s.key.toNat →
      exec .encText s = .next (committedWith s .invalidInput .keyRange 0)) ∧
    (s.textLen.toNat ≤ s.cfg.textDepth → (∀ i < s.textLen.toNat, (textIn s i).toNat < 256) → s.key.toNat < 1024 →
      ∃ m, exec .encText s = .next { committedWith s .none .noError 0 with ram := m } ∧
        (∀ i < s.textLen.toNat, textOut { s with ram := m } i =
          encrypt8 ((textIn s i).setWidth 8) (s.key.setWidth 10)) ∧
        (∀ a, (∀ i < s.textLen.toNat, a ≠ textOutOff i) → ramByte { s with ram := m } a = ramByte s a) ∧
        (s.textLen = 0 → m = s.ram))

/-- R209: DEC_TEXT as ENC_TEXT, with decryption; and the rule's own example. -/
def Obligations.DecTextDecryptsOrRejects : Prop :=
  encode .decText = 0x00000004 ∧
  (decrypt8 0xE4 0x282 = 0x48 ∧ decrypt8 0x83 0x282 = 0x69 ∧ decrypt8 0xAD 0x282 = 0x21) ∧
  ∀ s : State,
    (s.cfg.textDepth < s.textLen.toNat → exec .decText s = .next (committedWith s .invalidInput .textLenRange 0)) ∧
    (s.textLen.toNat ≤ s.cfg.textDepth → ∀ i < s.textLen.toNat, 256 ≤ (textIn s i).toNat →
      (∀ j < i, (textIn s j).toNat < 256) →
      exec .decText s = .next (committedWith s .invalidInput .textUnitRange (BitVec.ofNat 16 i))) ∧
    (s.textLen.toNat ≤ s.cfg.textDepth → (∀ i < s.textLen.toNat, (textIn s i).toNat < 256) → 1024 ≤ s.key.toNat →
      exec .decText s = .next (committedWith s .invalidInput .keyRange 0)) ∧
    (s.textLen.toNat ≤ s.cfg.textDepth → (∀ i < s.textLen.toNat, (textIn s i).toNat < 256) → s.key.toNat < 1024 →
      ∃ m, exec .decText s = .next { committedWith s .none .noError 0 with ram := m } ∧
        (∀ i < s.textLen.toNat, textOut { s with ram := m } i =
          decrypt8 ((textIn s i).setWidth 8) (s.key.setWidth 10)) ∧
        (∀ a, (∀ i < s.textLen.toNat, a ≠ textOutOff i) → ramByte { s with ram := m } a = ramByte s a) ∧
        (s.textLen = 0 → m = s.ram))

/-- R210: ENC_TEXT, TEXT_OUT copied to TEXT_IN, then DEC_TEXT with the same KEY and TEXT_LEN gives the first TEXT_IN. -/
def Obligations.TextRoundTrip : Prop :=
  ∀ s t u v : State, textError s = none → exec .encText s = .next t → u.cfg = s.cfg → u.key = s.key →
    u.textLen = s.textLen → (∀ i < s.textLen.toNat, textIn u i = (textOut t i).setWidth 32) →
    exec .decText u = .next v →
    v.status.errCode = .none ∧ ∀ i < s.textLen.toNat, (textOut v i).setWidth 32 = textIn s i

/-- R211: each unit a text command writes is what the block command writes for that unit: no chaining. -/
def Obligations.TextIsBlockByBlock : Prop :=
  ∀ (s t : State) (i : Nat), textError s = none → i < s.textLen.toNat →
    (exec .encText s = .next t →
      ∃ u, exec .encBlock { s with din := textIn s i } = .next u ∧ u.status.errCode = .none ∧ u.dout = textOut t i) ∧
    (exec .decText s = .next t →
      ∃ u, exec .decBlock { s with din := textIn s i } = .next u ∧ u.status.errCode = .none ∧ u.dout = textOut t i)

/-- R104: what no command changes, and what each leaves alone: the operand registers, pair memory and TEXT_IN by all of
them; DOUT by the text commands and SEARCH; all RAM by the block commands and SEARCH; MATCH_MAP, WORKERS_EFF and ELAPSED
by every command's sequencer step (a SEARCH writes them at its join). -/
def Obligations.CommandFrame : Prop :=
  ∀ (i : Instr) (s t : State), exec i s = .next t →
    (t.cfg = s.cfg ∧ t.ctrl = s.ctrl ∧ t.key = s.key ∧ t.din = s.din ∧ t.textLen = s.textLen ∧
      t.pairCount = s.pairCount ∧ t.workersReq = s.workersReq ∧ t.ramEpoch = s.ramEpoch ∧ t.op = s.op ∧
      t.host = s.host ∧ t.status.dropped = s.status.dropped ∧ t.status.lastOp = s.status.lastOp) ∧
    (∀ l : Loc, l.present s.cfg = true → s.cfg.wf = true → operandLoc l → readLoc t l = readLoc s l) ∧
    (t.matchMap = s.matchMap ∧ t.workersEff = s.workersEff ∧ t.elapsed = s.elapsed ∧ t.draws = s.draws) ∧
    (i ≠ .encBlock → i ≠ .decBlock → t.dout = s.dout) ∧
    (i ≠ .encText → i ≠ .decText → ∀ a, ramByte t a = ramByte s a) ∧
    (i ≠ .search → t.workers = s.workers ∧ t.aggMap = s.aggMap ∧ t.lock = s.lock)

/-! ### 44_bruteforce.md -/

/-- R231: what SEARCH rejects, and in which order; nothing but STATUS and ERR_INFO changes. -/
def Obligations.SearchRejectsBadPairs : Prop :=
  ∀ s : State,
    (s.pairCount = 0 → exec .search s = .next (committedWith s .invalidInput .pairCountZero 0)) ∧
    (s.pairCount ≠ 0 → s.cfg.pairDepth < s.pairCount.toNat →
      exec .search s = .next (committedWith s .invalidInput .pairCountRange 0)) ∧
    (s.pairCount ≠ 0 → s.pairCount.toNat ≤ s.cfg.pairDepth → ∀ i < s.pairCount.toNat,
      (∀ j < i, (pairPt s j).toNat < 256 ∧ (pairCt s j).toNat < 256) →
      (256 ≤ (pairPt s i).toNat →
        exec .search s = .next (committedWith s .invalidInput .pairPtRange (BitVec.ofNat 16 i))) ∧
      ((pairPt s i).toNat < 256 → 256 ≤ (pairCt s i).toNat →
        exec .search s = .next (committedWith s .invalidInput .pairCtRange (BitVec.ofNat 16 i))))

/-- R234: a SEARCH over valid pairs launches: AGG_MAP is cleared, the first W_eff workers get their ranges and run, the
others stay as they are, and nothing else changes. -/
def Obligations.SearchLaunchesItsWorkers : Prop :=
  encode .search = 0x00000005 ∧
  ∀ s : State, s.pairCount ≠ 0 → s.pairCount.toNat ≤ s.cfg.pairDepth →
    (∀ i < s.pairCount.toNat, (pairPt s i).toNat < 256 ∧ (pairCt s i).toNat < 256) →
    ∃ ws, exec .search s = .next { s with aggMap := 0, lock := .free, workers := ws, phase := .searchRun } ∧
      ws.length = s.workers.length ∧
      ∀ w x, s.workers[w]? = some x → ws[w]? = some (
        if w < effWorkers s then
          { phase := .run, lo := rangeLo (effWorkers s) w, hi := rangeHi (effWorkers s) w,
            k := rangeLo (effWorkers s) w, lbuf := 0 }
        else x)

/-- R232: W_eff = min(max(sext(WORKERS), 1), NW), and the rule's examples. -/
def Obligations.WorkerCountIsClamped : Prop :=
  (∀ (s : State), ((effWorkers s : Nat) : Int) = min (max s.workersReq.toInt 1) s.cfg.nw) ∧
  clampWorkers 4 0 = 1 ∧ clampWorkers 4 0xFFFFFFFF = 1 ∧ clampWorkers 4 3 = 3 ∧ clampWorkers 4 100 = 4

/-- R233: the ranges are those of the formula, contiguous, and every key is in exactly one of them; every non-empty range
but the last has `chunk` keys, and the rule's examples. -/
def Obligations.PartitionCoversTheKeySpaceOnce : Prop :=
  (∀ n : Nat, 1 ≤ n →
    (1024 ≤ chunkSize n * n ∧ (chunkSize n - 1) * n < 1024) ∧
    (∀ w, rangeLo n w = min 1024 (w * chunkSize n) ∧ rangeHi n w = min 1024 ((w + 1) * chunkSize n)) ∧
    rangeLo n 0 = 0 ∧ rangeHi n (n - 1) = 1024 ∧ (∀ w, rangeHi n w = rangeLo n (w + 1)) ∧
    (∀ k < 1024, ∃ w, (w < n ∧ rangeLo n w ≤ k ∧ k < rangeHi n w) ∧
      ∀ v, v < n ∧ rangeLo n v ≤ k ∧ k < rangeHi n v → v = w) ∧
    (∀ w, rangeLo n w < rangeHi n w →
      rangeHi n w - rangeLo n w ≤ chunkSize n ∧ (rangeHi n w < 1024 → rangeHi n w - rangeLo n w = chunkSize n))) ∧
  (rangeHi 1 0 = 1024 ∧ chunkSize 3 = 342 ∧ rangeHi 3 0 = 342 ∧ rangeHi 3 1 = 684 ∧ rangeHi 3 2 = 1024 ∧
    rangeHi 4 0 = 256 ∧ chunkSize 100 = 11 ∧ rangeLo 100 93 = 1023 ∧ rangeHi 100 93 = 1024 ∧ rangeLo 100 94 = 1024)

/-- R236, R237, R244: each worker step, when it is enabled and all it changes. That a running worker past its range has no
step is read from the rules' guards (log 26). -/
def Obligations.WorkerStepsTestEndAndMerge : Prop :=
  ∀ (s : State) (w : Nat) (x : Worker), s.workers[w]? = some x →
    (x.phase = .run → x.k < x.hi →
      ∃ b, workerMove w s = some { s with workers := s.workers.set w { x with lbuf := b, k := x.k + 1 } } ∧
        ∀ j < 1024, b.getLsbD j = (x.lbuf.getLsbD j || (decide (j = x.k) && matchesKey s x.k))) ∧
    (x.phase = .run → x.k = x.hi →
      workerMove w s = some { s with workers := s.workers.set w { x with phase := .mergePending } }) ∧
    (x.phase = .run → x.hi < x.k → workerMove w s = none) ∧
    (x.phase = .mergePending → s.lock = .free →
      workerMove w s = some { s with
        aggMap := s.aggMap ||| x.lbuf
        lock := .free
        workers := s.workers.set w { x with phase := .merged } }) ∧
    (x.phase = .mergePending → s.lock ≠ .free → workerMove w s = none) ∧
    (x.phase = .idle ∨ x.phase = .merged → workerMove w s = none)

/-- R235: MATCHES(k) is the conjunction over the first PAIR_COUNT pairs of "the plaintext encrypts to the ciphertext". -/
def Obligations.MatchesTestsEveryPair : Prop :=
  ∀ (s : State) (k : Nat), matchesKey s k = true ↔
    ∀ p < s.pairCount.toNat,
      encrypt8 ((pairPt s p).setWidth 8) (BitVec.ofNat 10 k) = (pairCt s p).setWidth 8

/-- R245: the join is enabled exactly when every launched worker is MERGED; it copies AGG_MAP to MATCH_MAP, records W_eff
and a drawn ELAPSED, returns the launched workers to IDLE, and commits. The draw is the model's: it advances the model's
own count of draws (log 7). -/
def Obligations.JoinCommitsTheSearch : Prop :=
  ∀ s : State, s.phase = .searchRun →
    ((∀ w < effWorkers s, ∃ x, s.workers[w]? = some x ∧ x.phase = .merged) →
      ∃ ws e, seqMove s = some (.next { committedWith s .none .noError 0 with
          matchMap := s.aggMap
          workersEff := BitVec.ofNat 32 (effWorkers s)
          elapsed := e
          draws := s.draws + 1
          workers := ws }) ∧
        ws.length = s.workers.length ∧
        ∀ w x, s.workers[w]? = some x → ws[w]? = some (if w < effWorkers s then { x with phase := .idle } else x)) ∧
    ((∃ w < effWorkers s, ∀ x, s.workers[w]? = some x → x.phase ≠ .merged) → seqMove s = none)

/-- R84: the moves of two workers commute, merges included: whichever goes first, the state after both is the same. -/
def Obligations.WorkerMovesCommute : Prop :=
  ∀ (s t u : State) (w v : Nat), w ≠ v → workerMove w s = some t → workerMove v s = some u →
    ∃ r, workerMove v t = some r ∧ workerMove w u = some r

/-- Where a SEARCH stands just before its join, AGG_MAP is the candidate key set, whatever the host did meanwhile. -/
def Obligations.JoinYieldsTheCandidateSet : Prop :=
  ∀ s t : State, Inv s → s.phase = .searchRun → seqMove s = some (.next t) →
    ∀ k < 1024, t.matchMap.getLsbD k = matchesKey s k

/-- R248: from the acceptance of a SEARCH over valid pairs, on every schedule of the sequencer and the workers that ends in
an idle core, for every NW and WORKERS, MATCH_MAP has bit k set exactly when MATCHES(k) holds; the outcome is success, and
nothing the command does not write has changed. -/
def Obligations.SearchCommitsTheCandidateSet : Prop :=
  ∀ (s t : State) (as : List Agent), Inv s → s.phase = .exec → s.op = .cmd .search → searchError s = none →
    (∀ a ∈ as, a.isCore = true) → runAgents as s = some t → t.phase = .idle →
    (∀ k < 1024, t.matchMap.getLsbD k = matchesKey s k) ∧
    t.workersEff = BitVec.ofNat 32 (effWorkers s) ∧
    t.status = { s.status with busy := false, done := true, errCode := .none } ∧
    t.errInfo = { subcause := .noError, index := 0 } ∧
    sameInputs s t ∧ t.dout = s.dout ∧ t.ctrl = s.ctrl ∧ ∀ x ∈ t.workers, x.phase = .idle

/-- R249: MATCHES does not see key position 2, so every committed candidate set is closed under XOR 0x100 and MATCH_COUNT
is even; it is never 1. -/
def Obligations.CandidateSetsAreClosedAndEven : Prop :=
  (∀ (s : State) (k : Nat), k < 1024 → matchesKey s (k ^^^ 0x100) = matchesKey s k) ∧
  (∀ s t : State, Inv s → s.phase = .searchRun → seqMove s = some (.next t) →
    (∀ k < 1024, t.matchMap.getLsbD (k ^^^ 0x100) = t.matchMap.getLsbD k) ∧
    matchCount t.matchMap % 2 = 0 ∧ matchCount t.matchMap ≠ 1)

/-- R250: the key that produced every pair's ciphertext is in the committed set, and so is its partner. -/
def Obligations.SearchFindsTheTrueKey : Prop :=
  ∀ (s t : State) (k : Nat), Inv s → s.phase = .searchRun → seqMove s = some (.next t) → k < 1024 →
    (∀ p < s.pairCount.toNat,
      (pairCt s p).setWidth 8 = encrypt8 ((pairPt s p).setWidth 8) (BitVec.ofNat 10 k)) →
    t.matchMap.getLsbD k = true ∧ t.matchMap.getLsbD (k ^^^ 0x100) = true

/-- R104 and 60_exceptions.md R272's last paragraph: a command reads and checks its own operands only. The block commands
read nothing but KEY and DIN: their whole effect is the same whatever the other operands and the RAM hold. For a text
command, two states that agree on its operands (so DIN, PAIR_COUNT, WORKERS and the pair memory may differ) give the same
outcome and the same TEXT_OUT. For SEARCH, two states that agree on its operands (so KEY, DIN, TEXT_LEN and TEXT_IN may
differ) give the same outcome and the same launch, every worker's move has the same effect on the SEARCH, and the join
commits the same MATCH_MAP and WORKERS_EFF. -/
def Obligations.CommandsReadOnlyTheirOperands : Prop :=
  (∀ (s : State) (a b c : Word), exec .search { s with key := a, din := b, textLen := c } =
    mapNext (fun t => { t with key := a, din := b, textLen := c }) (exec .search s)) ∧
  (∀ (i : Instr) (s : State) (a b c : Word) (m : List Host.Cell), i = .encBlock ∨ i = .decBlock →
    exec i { s with pairCount := a, workersReq := b, textLen := c, ram := m } =
      mapNext (fun t => { t with pairCount := a, workersReq := b, textLen := c, ram := m }) (exec i s)) ∧
  (∀ (i : Instr) (s u s' u' : State), i = .encText ∨ i = .decText → sameTextInputs s u →
    exec i s = .next s' → exec i u = .next u' →
    u'.status.errCode = s'.status.errCode ∧ u'.errInfo = s'.errInfo ∧
    (s'.status.errCode = .none → ∀ j < s.textLen.toNat, textOut u' j = textOut s' j)) ∧
  (∀ s u s' u' : State, sameSearchInputs s u → sameProgress s u → exec .search s = .next s' →
    exec .search u = .next u' →
    u'.phase = s'.phase ∧ sameProgress s' u' ∧
    (s'.phase = .idle → u'.status.errCode = s'.status.errCode ∧ u'.errInfo = s'.errInfo)) ∧
  (∀ (s u : State) (w : Nat), sameSearchInputs s u → sameProgress s u →
    (workerMove w s = none ↔ workerMove w u = none) ∧
    ∀ s' u', workerMove w s = some s' → workerMove w u = some u' → sameProgress s' u') ∧
  (∀ s u : State, sameSearchInputs s u → sameProgress s u → s.phase = .searchRun → u.phase = .searchRun →
    (seqMove s = none ↔ seqMove u = none) ∧
    ∀ s' u', seqMove s = some (.next s') → seqMove u = some (.next u') →
      sameProgress s' u' ∧ u'.matchMap = s'.matchMap ∧ u'.workersEff = s'.workersEff ∧
      u'.status.errCode = s'.status.errCode ∧ u'.errInfo = s'.errInfo)

/-! ### 60_exceptions.md -/

/-- R274: when the sequencer's step ends a command with an error, illegal words included, every output location but
ERR_INFO reads what it would have read before, and the fields that hold them are unchanged. -/
def Obligations.ErrorsAreNeverPartial : Prop :=
  ∀ s t : State, seqMove s = some (.next t) → t.phase = .idle → t.status.errCode ≠ .none →
    (∀ l : Loc, isOutput l = true → l ≠ .errInfo → readLoc t l = readLoc s l) ∧
    t.dout = s.dout ∧ t.ram = s.ram ∧ t.ramEpoch = s.ramEpoch ∧ t.matchMap = s.matchMap ∧
    t.workersEff = s.workersEff ∧ t.elapsed = s.elapsed

/-- R271: the numbers of the sub-causes, and the error kind each belongs to. -/
def Obligations.SubCausesAreNumbered : Prop :=
  [SubCause.noError, .keyRange, .dinRange, .textLenRange, .textUnitRange, .pairCountZero, .pairCountRange, .pairPtRange,
    .pairCtRange, .opReserved, .cmdReservedBits, .tableIndex].map (fun c => (c.code.toNat, c.kind.code.toNat)) =
  [(0, 0), (1, 1), (2, 1), (3, 1), (4, 1), (5, 1), (6, 1), (7, 1), (8, 1), (9, 2), (10, 2), (11, 3)] ∧
  ∀ e : ErrInfo, e.word.extractLsb' 0 8 = e.subcause.code ∧ e.word.extractLsb' 8 8 = 0 ∧ e.word.extractLsb' 16 16 = e.index

/-- R283: irq is IRQ_EN & DONE; both commits raise it when enabled; acceptance, clearing DONE and reset lower it; a
dropped write does not touch it. -/
def Obligations.InterruptFollowsDone : Prop :=
  ∀ (s : State) (c v : Word) (e : CommandError),
    irq s = (s.ctrl.irqEn && s.status.done) ∧ irq (commitOk s) = s.ctrl.irqEn ∧ irq (commitError e s) = s.ctrl.irqEn ∧
    irq (accept c s) = false ∧ (v.getLsbD 1 = true → irq { s with status := s.status.clear v } = false) ∧
    irq { s with status := s.status.markDropped } = irq s ∧ irq { s with ctrl := { irqEn := false } } = false ∧
    irq (hardReset s) = false ∧ irq (softReset s) = false

/-! ### 70_reset_and_hazards.md -/

/-- R300: while the reset input is asserted, and at its release, from any state: registers 0, MATCH_MAP empty, every RAM
byte an unspecified value (that of a new epoch: log 3), the sequencer and the workers IDLE, LOCK free, irq 0. A running
command ends with no commit: DONE stays 0. While it is asserted no write of the host changes anything, and no move of any
agent takes the core out of the reset state. That a release without an assertion is no event is the model's choice
(log 20). -/
def Obligations.HardwareResetState : Prop :=
  (∀ (s : State) (asserted : Bool), asserted = true ∨ s.rst = true → ∃ t, hostStmt s (.rst asserted) = .next t ∧
    t.rst = asserted ∧
    t.cfg = s.cfg ∧ t.ctrl.word = 0 ∧ t.status.word = 0 ∧ t.errInfo.word = 0 ∧ t.key = 0 ∧ t.din = 0 ∧ t.dout = 0 ∧
    t.textLen = 0 ∧ t.pairCount = 0 ∧ t.workersReq = 0 ∧ t.workersEff = 0 ∧ t.elapsed = 0 ∧ t.matchMap = 0 ∧
    (∀ j, readLoc t (.matchKey j) = 0) ∧ readLoc t .matchCount = 0 ∧
    (∀ a, ramByte t a = Config.freeByte s.draws a) ∧ t.phase = .idle ∧
    (t.workers.length = s.cfg.nw ∧ ∀ x ∈ t.workers, x.phase = .idle) ∧ t.lock = .free ∧ irq t = false) ∧
  (∀ s : State, s.rst = false → hostStmt s (.rst false) = .next (hostGoto s (s.host.pc + 1))) ∧
  (∀ (s : State) (size addr : Nat) (v : Word), s.rst = true → (memWrite s size addr v).2 = s) ∧
  (∀ (a : Agent) (s t : State), Inv s → s.rst = true → agentMove a s = some (.next t) →
    inReset t ∧ (t.rst = true ∨ s.host.prog[s.host.pc]? = some (.rst false)))

/-- R302: a CTRL write with bit 1 set while BUSY = 0 takes the registers, MATCH_MAP, the sequencer, the workers and LOCK to
their reset values and keeps the RAM windows and the parameters; while BUSY = 1 it is dropped. `rst` is released. -/
def Obligations.SoftResetState : Prop :=
  ∀ (s : State) (v : Word), s.cfg.wf = true → s.rst = false → v.getLsbD 1 = true →
    (s.status.busy = true → memWrite s 4 (s.cfg.base + 0x010) v =
      (.written, { s with ctrl := { irqEn := v.getLsbD 0 }, status := { s.status with dropped := true } })) ∧
    (s.status.busy = false → ∃ t, memWrite s 4 (s.cfg.base + 0x010) v = (.written, t) ∧
      t.cfg = s.cfg ∧ t.ctrl = { irqEn := false } ∧ t.status.word = 0 ∧ t.errInfo.word = 0 ∧ t.key = 0 ∧ t.din = 0 ∧
      t.dout = 0 ∧ t.textLen = 0 ∧ t.pairCount = 0 ∧ t.workersReq = 0 ∧ t.workersEff = 0 ∧ t.elapsed = 0 ∧
      t.matchMap = 0 ∧ t.ram = s.ram ∧ t.ramEpoch = s.ramEpoch ∧ t.phase = .idle ∧
      (t.workers.length = s.cfg.nw ∧ ∀ x ∈ t.workers, x.phase = .idle) ∧ t.lock = .free)

/-- R305: the clean-entry state is the state after a hardware reset, after a soft reset, and after any commit followed by
ACK (a write of 0x0000000A to STATUS). -/
def Obligations.CleanEntryStates : Prop :=
  (∀ s : State, cleanEntry (hardReset s)) ∧ (∀ s : State, cleanEntry (softReset s)) ∧
  (∀ s : State, Inv s → s.phase = .idle → ∃ t, memWrite s 4 (s.cfg.base + 0x018) 0x0000000A = (.written, t) ∧
    cleanEntry t ∧ t.status.done = false)

/-- The invariant holds after a hardware reset, for every legal choice of the parameters and every draw. -/
def Obligations.InvariantHoldsAtReset : Prop :=
  (∀ (c : Config) (d : Nat), c.wf = true → Inv (State.resetOf c d)) ∧ Inv State.reset

/-- Every move of every agent, in any order, and so every step, keeps the invariant: legal parameters, canonical memory
within the RAM windows, BUSY exactly when the sequencer is not IDLE, DONE = 0 and ERR_CODE = 0 while BUSY, ERR_CODE and
SUBCAUSE in agreement and never PROGRAMMING_ERROR, idle workers outside a SEARCH, in a SEARCH every worker's LBUF and
AGG_MAP exactly the matching keys tested and merged so far, and the reset state while `rst` is asserted. -/
def Obligations.EveryMoveKeepsTheInvariant : Prop :=
  (∀ (a : Agent) (s t : State), Inv s → agentMove a s = some (.next t) → Inv t) ∧
  (∀ s t : State, Inv s → step s = .next t → Inv t)

/-! ### Schedules and termination: 00_scope.md R13, 30_encoding.md R114, 44_bruteforce.md R247, R252 -/

/-- A step is one agent's move with the offer of the next move around it (log 11), or leaves the state as it is when no
agent has an enabled step. -/
def Obligations.StepIsOneAgentsMove : Prop :=
  ∀ s : State, (step s = .next s ∧ ∀ a, agentMove a s = none) ∨
    ∃ a o, agentMove a s = some o ∧ step s = mapNext regrant o

/-- Every enabled move may be the next one: the step takes it when its agent is granted the move (the model's own field:
log 11). -/
def Obligations.EveryEnabledMoveCanBeNext : Prop :=
  ∀ (s t : State) (a : Agent), agentMove a s = some (.next t) → step { s with grant := a } = .next (regrant t)

/-- A step is never refused, and it stops only where the HOST agent stands at a branch (log 13). -/
def Obligations.StepsStopOnlyAtHostBranches : Prop :=
  ∀ s : State, (∀ r, step s ≠ .refused r) ∧
    (∀ f, step s = .fault f → ∃ name mask value l, s.host.prog[s.host.pc]? = some (.bne name mask value l))

/-- The moves of the sequencer and the workers from any state are finitely many on every schedule: at most
1026 + 2·NW of them until none is enabled. The bound counts the model's moves (log 16); R310 fixes none. -/
def Obligations.CoreWorkIsBounded : Prop :=
  ∀ (s t : State) (as : List Agent), Inv s → (∀ a ∈ as, a.isCore = true) → runAgents as s = some t →
    as.length ≤ commitBound s.cfg.nw

/-- A busy core always has an enabled move of its own. -/
def Obligations.BusyCoreIsNeverStuck : Prop :=
  ∀ s : State, Inv s → s.status.busy = true → ∃ a t, a.isCore = true ∧ agentMove a s = some (.next t)

/-- Every accepted command reaches its commit: with the HOST agent at the end of its program, the machine's own steps
reach it within the bound, whatever the free order of moves. The bound counts the model's steps, each one agent's move
(log 16) in the model's free order with its fallback (log 11); R310 fixes none. -/
def Obligations.StepsReachTheCommit : Prop :=
  ∀ s : State, Inv s → s.status.busy = true → s.host.prog.length ≤ s.host.pc →
    ∃ n ≤ commitBound s.cfg.nw, ∃ t, runSteps n s = .next t ∧ t.status.busy = false ∧ t.status.done = true

/-! ### 30_encoding.md section 5: host programs -/

/-- R117: the expansions; and R116's transactions of RUN SEARCH's statements. -/
def Obligations.PseudoInstructionsExpand : Prop :=
  ∀ lp t : Nat,
    (∀ loc m v, (Pseudo.poll loc m v).expand lp t = [.label lp, .rd loc t, .bne t m v lp]) ∧
    Pseudo.wait.expand lp t = [.label lp, .rd (.named .status) t, .bne t 0x00000003 0x00000002 lp] ∧
    (∀ i, (Pseudo.run i).expand lp t = .wr (.named .cmd) (encode i) :: Pseudo.wait.expand lp t) ∧
    Pseudo.ack.expand lp t = [.wr (.named .status) 0x0000000A] ∧
    (∀ win vs, (Pseudo.wrbuf win vs).expand lp t = vs.mapIdx fun i v => .wr (.named (win.entry i)) v) ∧
    (∀ ps, (Pseudo.wrpairs ps).expand lp t =
      (ps.mapIdx fun i p => [.wr (.named (.pairPt i)) p.1, .wr (.named (.pairCt i)) p.2]).flatten) ∧
    (HostStmt.wr (.named .cmd) (encode .search)).transaction =
      some { dir := .write, offset := 0x014, data := some 0x00000005 } ∧
    (HostStmt.rd (.named .status) t).transaction = some { dir := .read, offset := 0x018, data := none }

/-- WAIT's branch goes on exactly when the STATUS word it read has BUSY = 0 and DONE = 1, and else back to its label; where
that label stands twice, to the first of them, which is the model's choice (log 28). -/
def Obligations.WaitEndsAtDone : Prop :=
  ∀ (s : State) (st : Status) (t lp i : Nat), cellGet s.host.names t = some st.word → labelIndex s.host.prog lp = some i →
    hostStmt s (.bne t 0x00000003 0x00000002 lp) =
      .next (hostGoto s (if st.busy = false ∧ st.done = true then s.host.pc + 1 else i))

/-! ### 10_state.md: CTRL -/

/-- R24: CTRL reads IRQ_EN in bit 0 and 0 above it. A write of v with v[1] = 0 sets IRQ_EN to v[0] and changes nothing else,
BUSY or not; with v[1] = 1 it performs the soft reset while BUSY = 0, and while BUSY = 1 it sets IRQ_EN and the soft reset is
dropped. `rst` is released: while it is asserted CTRL keeps its reset value (HardwareResetState). -/
def Obligations.CtrlWordAndWrites : Prop :=
  (∀ c : Ctrl, c.word.getLsbD 0 = c.irqEn ∧ c.word.extractLsb' 1 31 = 0) ∧
  (∀ (s : State) (v : Word), s.cfg.wf = true → s.rst = false →
    (v.getLsbD 1 = false → memWrite s 4 (s.cfg.base + 0x010) v =
      (.written, { s with ctrl := { irqEn := v.getLsbD 0 } })) ∧
    (v.getLsbD 1 = true → s.status.busy = false → memWrite s 4 (s.cfg.base + 0x010) v = (.written, softReset s)) ∧
    (v.getLsbD 1 = true → s.status.busy = true → memWrite s 4 (s.cfg.base + 0x010) v =
      (.written, { s with ctrl := { irqEn := v.getLsbD 0 }, status := { s.status with dropped := true } })))
end

