-- ==== Sys2Proof/Laws/State.lean ====
section
/-! SUPPORT. One lemma per field per update of the state, true by rfl, so that no proof unfolds a record update. -/

namespace Sys2Proof.Machine

/-! ### accept: acceptance (30_encoding.md R110) -/

@[simp] theorem accept_cfg (c : Word) (s : State) : (accept c s).cfg = s.cfg := rfl
@[simp] theorem accept_ctrl (c : Word) (s : State) : (accept c s).ctrl = s.ctrl := rfl
@[simp] theorem accept_status (c : Word) (s : State) : (accept c s).status = s.status.accept c := rfl
@[simp] theorem accept_errInfo (c : Word) (s : State) : (accept c s).errInfo = s.errInfo := rfl
@[simp] theorem accept_key (c : Word) (s : State) : (accept c s).key = s.key := rfl
@[simp] theorem accept_din (c : Word) (s : State) : (accept c s).din = s.din := rfl
@[simp] theorem accept_dout (c : Word) (s : State) : (accept c s).dout = s.dout := rfl
@[simp] theorem accept_textLen (c : Word) (s : State) : (accept c s).textLen = s.textLen := rfl
@[simp] theorem accept_pairCount (c : Word) (s : State) : (accept c s).pairCount = s.pairCount := rfl
@[simp] theorem accept_workersReq (c : Word) (s : State) : (accept c s).workersReq = s.workersReq := rfl
@[simp] theorem accept_workersEff (c : Word) (s : State) : (accept c s).workersEff = s.workersEff := rfl
@[simp] theorem accept_elapsed (c : Word) (s : State) : (accept c s).elapsed = s.elapsed := rfl
@[simp] theorem accept_matchMap (c : Word) (s : State) : (accept c s).matchMap = s.matchMap := rfl
@[simp] theorem accept_ram (c : Word) (s : State) : (accept c s).ram = s.ram := rfl
@[simp] theorem accept_ramEpoch (c : Word) (s : State) : (accept c s).ramEpoch = s.ramEpoch := rfl
@[simp] theorem accept_phase (c : Word) (s : State) : (accept c s).phase = .exec := rfl
@[simp] theorem accept_op (c : Word) (s : State) : (accept c s).op = decode c := rfl
@[simp] theorem accept_workers (c : Word) (s : State) : (accept c s).workers = s.workers := rfl
@[simp] theorem accept_aggMap (c : Word) (s : State) : (accept c s).aggMap = s.aggMap := rfl
@[simp] theorem accept_lock (c : Word) (s : State) : (accept c s).lock = s.lock := rfl
@[simp] theorem accept_rst (c : Word) (s : State) : (accept c s).rst = s.rst := rfl
@[simp] theorem accept_host (c : Word) (s : State) : (accept c s).host = s.host := rfl
@[simp] theorem accept_draws (c : Word) (s : State) : (accept c s).draws = s.draws := rfl
@[simp] theorem accept_turn (c : Word) (s : State) : (accept c s).turn = s.turn := rfl
@[simp] theorem accept_grant (c : Word) (s : State) : (accept c s).grant = s.grant := rfl

/-! ### commitOk: the successful commit (R112) -/

@[simp] theorem commitOk_cfg (s : State) : (commitOk s).cfg = s.cfg := rfl
@[simp] theorem commitOk_ctrl (s : State) : (commitOk s).ctrl = s.ctrl := rfl
@[simp] theorem commitOk_status (s : State) : (commitOk s).status = s.status.commit .none := rfl
@[simp] theorem commitOk_errInfo (s : State) : (commitOk s).errInfo = ErrInfo.zero := rfl
@[simp] theorem commitOk_key (s : State) : (commitOk s).key = s.key := rfl
@[simp] theorem commitOk_din (s : State) : (commitOk s).din = s.din := rfl
@[simp] theorem commitOk_dout (s : State) : (commitOk s).dout = s.dout := rfl
@[simp] theorem commitOk_textLen (s : State) : (commitOk s).textLen = s.textLen := rfl
@[simp] theorem commitOk_pairCount (s : State) : (commitOk s).pairCount = s.pairCount := rfl
@[simp] theorem commitOk_workersReq (s : State) : (commitOk s).workersReq = s.workersReq := rfl
@[simp] theorem commitOk_workersEff (s : State) : (commitOk s).workersEff = s.workersEff := rfl
@[simp] theorem commitOk_elapsed (s : State) : (commitOk s).elapsed = s.elapsed := rfl
@[simp] theorem commitOk_matchMap (s : State) : (commitOk s).matchMap = s.matchMap := rfl
@[simp] theorem commitOk_ram (s : State) : (commitOk s).ram = s.ram := rfl
@[simp] theorem commitOk_ramEpoch (s : State) : (commitOk s).ramEpoch = s.ramEpoch := rfl
@[simp] theorem commitOk_phase (s : State) : (commitOk s).phase = .idle := rfl
@[simp] theorem commitOk_op (s : State) : (commitOk s).op = s.op := rfl
@[simp] theorem commitOk_workers (s : State) : (commitOk s).workers = s.workers := rfl
@[simp] theorem commitOk_aggMap (s : State) : (commitOk s).aggMap = s.aggMap := rfl
@[simp] theorem commitOk_lock (s : State) : (commitOk s).lock = s.lock := rfl
@[simp] theorem commitOk_rst (s : State) : (commitOk s).rst = s.rst := rfl
@[simp] theorem commitOk_host (s : State) : (commitOk s).host = s.host := rfl
@[simp] theorem commitOk_draws (s : State) : (commitOk s).draws = s.draws := rfl
@[simp] theorem commitOk_turn (s : State) : (commitOk s).turn = s.turn := rfl
@[simp] theorem commitOk_grant (s : State) : (commitOk s).grant = s.grant := rfl

/-! ### commitError: the error commit (R113) -/

@[simp] theorem commitError_cfg (e : CommandError) (s : State) : (commitError e s).cfg = s.cfg := rfl
@[simp] theorem commitError_ctrl (e : CommandError) (s : State) : (commitError e s).ctrl = s.ctrl := rfl
@[simp] theorem commitError_status (e : CommandError) (s : State) : (commitError e s).status = s.status.commit e.1.kind := rfl
@[simp] theorem commitError_errInfo (e : CommandError) (s : State) : (commitError e s).errInfo = { subcause := e.1, index := BitVec.ofNat 16 e.2 } := rfl
@[simp] theorem commitError_key (e : CommandError) (s : State) : (commitError e s).key = s.key := rfl
@[simp] theorem commitError_din (e : CommandError) (s : State) : (commitError e s).din = s.din := rfl
@[simp] theorem commitError_dout (e : CommandError) (s : State) : (commitError e s).dout = s.dout := rfl
@[simp] theorem commitError_textLen (e : CommandError) (s : State) : (commitError e s).textLen = s.textLen := rfl
@[simp] theorem commitError_pairCount (e : CommandError) (s : State) : (commitError e s).pairCount = s.pairCount := rfl
@[simp] theorem commitError_workersReq (e : CommandError) (s : State) : (commitError e s).workersReq = s.workersReq := rfl
@[simp] theorem commitError_workersEff (e : CommandError) (s : State) : (commitError e s).workersEff = s.workersEff := rfl
@[simp] theorem commitError_elapsed (e : CommandError) (s : State) : (commitError e s).elapsed = s.elapsed := rfl
@[simp] theorem commitError_matchMap (e : CommandError) (s : State) : (commitError e s).matchMap = s.matchMap := rfl
@[simp] theorem commitError_ram (e : CommandError) (s : State) : (commitError e s).ram = s.ram := rfl
@[simp] theorem commitError_ramEpoch (e : CommandError) (s : State) : (commitError e s).ramEpoch = s.ramEpoch := rfl
@[simp] theorem commitError_phase (e : CommandError) (s : State) : (commitError e s).phase = .idle := rfl
@[simp] theorem commitError_op (e : CommandError) (s : State) : (commitError e s).op = s.op := rfl
@[simp] theorem commitError_workers (e : CommandError) (s : State) : (commitError e s).workers = s.workers := rfl
@[simp] theorem commitError_aggMap (e : CommandError) (s : State) : (commitError e s).aggMap = s.aggMap := rfl
@[simp] theorem commitError_lock (e : CommandError) (s : State) : (commitError e s).lock = s.lock := rfl
@[simp] theorem commitError_rst (e : CommandError) (s : State) : (commitError e s).rst = s.rst := rfl
@[simp] theorem commitError_host (e : CommandError) (s : State) : (commitError e s).host = s.host := rfl
@[simp] theorem commitError_draws (e : CommandError) (s : State) : (commitError e s).draws = s.draws := rfl
@[simp] theorem commitError_turn (e : CommandError) (s : State) : (commitError e s).turn = s.turn := rfl
@[simp] theorem commitError_grant (e : CommandError) (s : State) : (commitError e s).grant = s.grant := rfl

/-! ### hardReset: the hardware reset (70_reset_and_hazards.md R300) -/

@[simp] theorem hardReset_cfg (s : State) : (hardReset s).cfg = s.cfg := rfl
@[simp] theorem hardReset_ctrl (s : State) : (hardReset s).ctrl = { irqEn := false } := rfl
@[simp] theorem hardReset_status (s : State) : (hardReset s).status = Status.reset := rfl
@[simp] theorem hardReset_errInfo (s : State) : (hardReset s).errInfo = ErrInfo.zero := rfl
@[simp] theorem hardReset_key (s : State) : (hardReset s).key = 0 := rfl
@[simp] theorem hardReset_din (s : State) : (hardReset s).din = 0 := rfl
@[simp] theorem hardReset_dout (s : State) : (hardReset s).dout = 0 := rfl
@[simp] theorem hardReset_textLen (s : State) : (hardReset s).textLen = 0 := rfl
@[simp] theorem hardReset_pairCount (s : State) : (hardReset s).pairCount = 0 := rfl
@[simp] theorem hardReset_workersReq (s : State) : (hardReset s).workersReq = 0 := rfl
@[simp] theorem hardReset_workersEff (s : State) : (hardReset s).workersEff = 0 := rfl
@[simp] theorem hardReset_elapsed (s : State) : (hardReset s).elapsed = 0 := rfl
@[simp] theorem hardReset_matchMap (s : State) : (hardReset s).matchMap = 0 := rfl
@[simp] theorem hardReset_ram (s : State) : (hardReset s).ram = [] := rfl
@[simp] theorem hardReset_ramEpoch (s : State) : (hardReset s).ramEpoch = s.draws := rfl
@[simp] theorem hardReset_phase (s : State) : (hardReset s).phase = .idle := rfl
@[simp] theorem hardReset_op (s : State) : (hardReset s).op = .illegal .opReserved := rfl
@[simp] theorem hardReset_workers (s : State) : (hardReset s).workers = resetWorkers s.cfg s.draws := rfl
@[simp] theorem hardReset_aggMap (s : State) : (hardReset s).aggMap = Config.freeAggMap s.draws := rfl
@[simp] theorem hardReset_lock (s : State) : (hardReset s).lock = .free := rfl
@[simp] theorem hardReset_rst (s : State) : (hardReset s).rst = s.rst := rfl
@[simp] theorem hardReset_host (s : State) : (hardReset s).host = s.host := rfl
@[simp] theorem hardReset_draws (s : State) : (hardReset s).draws = s.draws + 1 := rfl
@[simp] theorem hardReset_turn (s : State) : (hardReset s).turn = s.turn := rfl
@[simp] theorem hardReset_grant (s : State) : (hardReset s).grant = s.grant := rfl

/-! ### softReset: the soft reset (R302) -/

@[simp] theorem softReset_cfg (s : State) : (softReset s).cfg = s.cfg := rfl
@[simp] theorem softReset_ctrl (s : State) : (softReset s).ctrl = { irqEn := false } := rfl
@[simp] theorem softReset_status (s : State) : (softReset s).status = Status.reset := rfl
@[simp] theorem softReset_errInfo (s : State) : (softReset s).errInfo = ErrInfo.zero := rfl
@[simp] theorem softReset_key (s : State) : (softReset s).key = 0 := rfl
@[simp] theorem softReset_din (s : State) : (softReset s).din = 0 := rfl
@[simp] theorem softReset_dout (s : State) : (softReset s).dout = 0 := rfl
@[simp] theorem softReset_textLen (s : State) : (softReset s).textLen = 0 := rfl
@[simp] theorem softReset_pairCount (s : State) : (softReset s).pairCount = 0 := rfl
@[simp] theorem softReset_workersReq (s : State) : (softReset s).workersReq = 0 := rfl
@[simp] theorem softReset_workersEff (s : State) : (softReset s).workersEff = 0 := rfl
@[simp] theorem softReset_elapsed (s : State) : (softReset s).elapsed = 0 := rfl
@[simp] theorem softReset_matchMap (s : State) : (softReset s).matchMap = 0 := rfl
@[simp] theorem softReset_ram (s : State) : (softReset s).ram = s.ram := rfl
@[simp] theorem softReset_ramEpoch (s : State) : (softReset s).ramEpoch = s.ramEpoch := rfl
@[simp] theorem softReset_phase (s : State) : (softReset s).phase = .idle := rfl
@[simp] theorem softReset_op (s : State) : (softReset s).op = .illegal .opReserved := rfl
@[simp] theorem softReset_workers (s : State) : (softReset s).workers = resetWorkers s.cfg s.draws := rfl
@[simp] theorem softReset_aggMap (s : State) : (softReset s).aggMap = Config.freeAggMap s.draws := rfl
@[simp] theorem softReset_lock (s : State) : (softReset s).lock = .free := rfl
@[simp] theorem softReset_rst (s : State) : (softReset s).rst = s.rst := rfl
@[simp] theorem softReset_host (s : State) : (softReset s).host = s.host := rfl
@[simp] theorem softReset_draws (s : State) : (softReset s).draws = s.draws + 1 := rfl
@[simp] theorem softReset_turn (s : State) : (softReset s).turn = s.turn := rfl
@[simp] theorem softReset_grant (s : State) : (softReset s).grant = s.grant := rfl

/-! ### launch: the launch of a SEARCH (44_bruteforce.md R234) -/

@[simp] theorem launch_cfg (s : State) : (launch s).cfg = s.cfg := rfl
@[simp] theorem launch_ctrl (s : State) : (launch s).ctrl = s.ctrl := rfl
@[simp] theorem launch_status (s : State) : (launch s).status = s.status := rfl
@[simp] theorem launch_errInfo (s : State) : (launch s).errInfo = s.errInfo := rfl
@[simp] theorem launch_key (s : State) : (launch s).key = s.key := rfl
@[simp] theorem launch_din (s : State) : (launch s).din = s.din := rfl
@[simp] theorem launch_dout (s : State) : (launch s).dout = s.dout := rfl
@[simp] theorem launch_textLen (s : State) : (launch s).textLen = s.textLen := rfl
@[simp] theorem launch_pairCount (s : State) : (launch s).pairCount = s.pairCount := rfl
@[simp] theorem launch_workersReq (s : State) : (launch s).workersReq = s.workersReq := rfl
@[simp] theorem launch_workersEff (s : State) : (launch s).workersEff = s.workersEff := rfl
@[simp] theorem launch_elapsed (s : State) : (launch s).elapsed = s.elapsed := rfl
@[simp] theorem launch_matchMap (s : State) : (launch s).matchMap = s.matchMap := rfl
@[simp] theorem launch_ram (s : State) : (launch s).ram = s.ram := rfl
@[simp] theorem launch_ramEpoch (s : State) : (launch s).ramEpoch = s.ramEpoch := rfl
@[simp] theorem launch_phase (s : State) : (launch s).phase = .searchRun := rfl
@[simp] theorem launch_op (s : State) : (launch s).op = s.op := rfl
@[simp] theorem launch_workers (s : State) : (launch s).workers = s.workers.mapIdx (launchWorker (effWorkers s)) := rfl
@[simp] theorem launch_aggMap (s : State) : (launch s).aggMap = 0 := rfl
@[simp] theorem launch_lock (s : State) : (launch s).lock = .free := rfl
@[simp] theorem launch_rst (s : State) : (launch s).rst = s.rst := rfl
@[simp] theorem launch_host (s : State) : (launch s).host = s.host := rfl
@[simp] theorem launch_draws (s : State) : (launch s).draws = s.draws := rfl
@[simp] theorem launch_turn (s : State) : (launch s).turn = s.turn := rfl
@[simp] theorem launch_grant (s : State) : (launch s).grant = s.grant := rfl

/-! ### mergeStep: the merge (R244) -/

@[simp] theorem mergeStep_cfg (s : State) (w : Nat) (x : Worker) : (mergeStep s w x).cfg = s.cfg := rfl
@[simp] theorem mergeStep_ctrl (s : State) (w : Nat) (x : Worker) : (mergeStep s w x).ctrl = s.ctrl := rfl
@[simp] theorem mergeStep_status (s : State) (w : Nat) (x : Worker) : (mergeStep s w x).status = s.status := rfl
@[simp] theorem mergeStep_errInfo (s : State) (w : Nat) (x : Worker) : (mergeStep s w x).errInfo = s.errInfo := rfl
@[simp] theorem mergeStep_key (s : State) (w : Nat) (x : Worker) : (mergeStep s w x).key = s.key := rfl
@[simp] theorem mergeStep_din (s : State) (w : Nat) (x : Worker) : (mergeStep s w x).din = s.din := rfl
@[simp] theorem mergeStep_dout (s : State) (w : Nat) (x : Worker) : (mergeStep s w x).dout = s.dout := rfl
@[simp] theorem mergeStep_textLen (s : State) (w : Nat) (x : Worker) : (mergeStep s w x).textLen = s.textLen := rfl
@[simp] theorem mergeStep_pairCount (s : State) (w : Nat) (x : Worker) : (mergeStep s w x).pairCount = s.pairCount := rfl
@[simp] theorem mergeStep_workersReq (s : State) (w : Nat) (x : Worker) : (mergeStep s w x).workersReq = s.workersReq := rfl
@[simp] theorem mergeStep_workersEff (s : State) (w : Nat) (x : Worker) : (mergeStep s w x).workersEff = s.workersEff := rfl
@[simp] theorem mergeStep_elapsed (s : State) (w : Nat) (x : Worker) : (mergeStep s w x).elapsed = s.elapsed := rfl
@[simp] theorem mergeStep_matchMap (s : State) (w : Nat) (x : Worker) : (mergeStep s w x).matchMap = s.matchMap := rfl
@[simp] theorem mergeStep_ram (s : State) (w : Nat) (x : Worker) : (mergeStep s w x).ram = s.ram := rfl
@[simp] theorem mergeStep_ramEpoch (s : State) (w : Nat) (x : Worker) : (mergeStep s w x).ramEpoch = s.ramEpoch := rfl
@[simp] theorem mergeStep_phase (s : State) (w : Nat) (x : Worker) : (mergeStep s w x).phase = s.phase := rfl
@[simp] theorem mergeStep_op (s : State) (w : Nat) (x : Worker) : (mergeStep s w x).op = s.op := rfl
@[simp] theorem mergeStep_workers (s : State) (w : Nat) (x : Worker) : (mergeStep s w x).workers = s.workers.set w { x with phase := .merged } := rfl
@[simp] theorem mergeStep_aggMap (s : State) (w : Nat) (x : Worker) : (mergeStep s w x).aggMap = s.aggMap ||| x.lbuf := rfl
@[simp] theorem mergeStep_lock (s : State) (w : Nat) (x : Worker) : (mergeStep s w x).lock = .free := rfl
@[simp] theorem mergeStep_rst (s : State) (w : Nat) (x : Worker) : (mergeStep s w x).rst = s.rst := rfl
@[simp] theorem mergeStep_host (s : State) (w : Nat) (x : Worker) : (mergeStep s w x).host = s.host := rfl
@[simp] theorem mergeStep_draws (s : State) (w : Nat) (x : Worker) : (mergeStep s w x).draws = s.draws := rfl
@[simp] theorem mergeStep_turn (s : State) (w : Nat) (x : Worker) : (mergeStep s w x).turn = s.turn := rfl
@[simp] theorem mergeStep_grant (s : State) (w : Nat) (x : Worker) : (mergeStep s w x).grant = s.grant := rfl

/-! ### join: the join and commit of a SEARCH (R245) -/

@[simp] theorem join_cfg (s : State) : (join s).cfg = s.cfg := rfl
@[simp] theorem join_ctrl (s : State) : (join s).ctrl = s.ctrl := rfl
@[simp] theorem join_status (s : State) : (join s).status = s.status.commit .none := rfl
@[simp] theorem join_errInfo (s : State) : (join s).errInfo = ErrInfo.zero := rfl
@[simp] theorem join_key (s : State) : (join s).key = s.key := rfl
@[simp] theorem join_din (s : State) : (join s).din = s.din := rfl
@[simp] theorem join_dout (s : State) : (join s).dout = s.dout := rfl
@[simp] theorem join_textLen (s : State) : (join s).textLen = s.textLen := rfl
@[simp] theorem join_pairCount (s : State) : (join s).pairCount = s.pairCount := rfl
@[simp] theorem join_workersReq (s : State) : (join s).workersReq = s.workersReq := rfl
@[simp] theorem join_workersEff (s : State) : (join s).workersEff = BitVec.ofNat 32 (effWorkers s) := rfl
@[simp] theorem join_elapsed (s : State) : (join s).elapsed = Config.freeWord s.draws := rfl
@[simp] theorem join_matchMap (s : State) : (join s).matchMap = s.aggMap := rfl
@[simp] theorem join_ram (s : State) : (join s).ram = s.ram := rfl
@[simp] theorem join_ramEpoch (s : State) : (join s).ramEpoch = s.ramEpoch := rfl
@[simp] theorem join_phase (s : State) : (join s).phase = .idle := rfl
@[simp] theorem join_op (s : State) : (join s).op = s.op := rfl
@[simp] theorem join_workers (s : State) : (join s).workers = s.workers.mapIdx fun w x => if w < effWorkers s then { x with phase := .idle } else x := rfl
@[simp] theorem join_aggMap (s : State) : (join s).aggMap = s.aggMap := rfl
@[simp] theorem join_lock (s : State) : (join s).lock = s.lock := rfl
@[simp] theorem join_rst (s : State) : (join s).rst = s.rst := rfl
@[simp] theorem join_host (s : State) : (join s).host = s.host := rfl
@[simp] theorem join_draws (s : State) : (join s).draws = s.draws + 1 := rfl
@[simp] theorem join_turn (s : State) : (join s).turn = s.turn := rfl
@[simp] theorem join_grant (s : State) : (join s).grant = s.grant := rfl

/-! ### hostGoto: a move of the host's place in its program -/

@[simp] theorem hostGoto_cfg (s : State) (pc : Nat) : (hostGoto s pc).cfg = s.cfg := rfl
@[simp] theorem hostGoto_ctrl (s : State) (pc : Nat) : (hostGoto s pc).ctrl = s.ctrl := rfl
@[simp] theorem hostGoto_status (s : State) (pc : Nat) : (hostGoto s pc).status = s.status := rfl
@[simp] theorem hostGoto_errInfo (s : State) (pc : Nat) : (hostGoto s pc).errInfo = s.errInfo := rfl
@[simp] theorem hostGoto_key (s : State) (pc : Nat) : (hostGoto s pc).key = s.key := rfl
@[simp] theorem hostGoto_din (s : State) (pc : Nat) : (hostGoto s pc).din = s.din := rfl
@[simp] theorem hostGoto_dout (s : State) (pc : Nat) : (hostGoto s pc).dout = s.dout := rfl
@[simp] theorem hostGoto_textLen (s : State) (pc : Nat) : (hostGoto s pc).textLen = s.textLen := rfl
@[simp] theorem hostGoto_pairCount (s : State) (pc : Nat) : (hostGoto s pc).pairCount = s.pairCount := rfl
@[simp] theorem hostGoto_workersReq (s : State) (pc : Nat) : (hostGoto s pc).workersReq = s.workersReq := rfl
@[simp] theorem hostGoto_workersEff (s : State) (pc : Nat) : (hostGoto s pc).workersEff = s.workersEff := rfl
@[simp] theorem hostGoto_elapsed (s : State) (pc : Nat) : (hostGoto s pc).elapsed = s.elapsed := rfl
@[simp] theorem hostGoto_matchMap (s : State) (pc : Nat) : (hostGoto s pc).matchMap = s.matchMap := rfl
@[simp] theorem hostGoto_ram (s : State) (pc : Nat) : (hostGoto s pc).ram = s.ram := rfl
@[simp] theorem hostGoto_ramEpoch (s : State) (pc : Nat) : (hostGoto s pc).ramEpoch = s.ramEpoch := rfl
@[simp] theorem hostGoto_phase (s : State) (pc : Nat) : (hostGoto s pc).phase = s.phase := rfl
@[simp] theorem hostGoto_op (s : State) (pc : Nat) : (hostGoto s pc).op = s.op := rfl
@[simp] theorem hostGoto_workers (s : State) (pc : Nat) : (hostGoto s pc).workers = s.workers := rfl
@[simp] theorem hostGoto_aggMap (s : State) (pc : Nat) : (hostGoto s pc).aggMap = s.aggMap := rfl
@[simp] theorem hostGoto_lock (s : State) (pc : Nat) : (hostGoto s pc).lock = s.lock := rfl
@[simp] theorem hostGoto_rst (s : State) (pc : Nat) : (hostGoto s pc).rst = s.rst := rfl
@[simp] theorem hostGoto_host (s : State) (pc : Nat) : (hostGoto s pc).host = { s.host with pc := pc } := rfl
@[simp] theorem hostGoto_draws (s : State) (pc : Nat) : (hostGoto s pc).draws = s.draws := rfl
@[simp] theorem hostGoto_turn (s : State) (pc : Nat) : (hostGoto s pc).turn = s.turn := rfl
@[simp] theorem hostGoto_grant (s : State) (pc : Nat) : (hostGoto s pc).grant = s.grant := rfl

/-! ### regrant: the offer of the next move (log 11) -/

@[simp] theorem regrant_cfg (s : State) : (regrant s).cfg = s.cfg := rfl
@[simp] theorem regrant_ctrl (s : State) : (regrant s).ctrl = s.ctrl := rfl
@[simp] theorem regrant_status (s : State) : (regrant s).status = s.status := rfl
@[simp] theorem regrant_errInfo (s : State) : (regrant s).errInfo = s.errInfo := rfl
@[simp] theorem regrant_key (s : State) : (regrant s).key = s.key := rfl
@[simp] theorem regrant_din (s : State) : (regrant s).din = s.din := rfl
@[simp] theorem regrant_dout (s : State) : (regrant s).dout = s.dout := rfl
@[simp] theorem regrant_textLen (s : State) : (regrant s).textLen = s.textLen := rfl
@[simp] theorem regrant_pairCount (s : State) : (regrant s).pairCount = s.pairCount := rfl
@[simp] theorem regrant_workersReq (s : State) : (regrant s).workersReq = s.workersReq := rfl
@[simp] theorem regrant_workersEff (s : State) : (regrant s).workersEff = s.workersEff := rfl
@[simp] theorem regrant_elapsed (s : State) : (regrant s).elapsed = s.elapsed := rfl
@[simp] theorem regrant_matchMap (s : State) : (regrant s).matchMap = s.matchMap := rfl
@[simp] theorem regrant_ram (s : State) : (regrant s).ram = s.ram := rfl
@[simp] theorem regrant_ramEpoch (s : State) : (regrant s).ramEpoch = s.ramEpoch := rfl
@[simp] theorem regrant_phase (s : State) : (regrant s).phase = s.phase := rfl
@[simp] theorem regrant_op (s : State) : (regrant s).op = s.op := rfl
@[simp] theorem regrant_workers (s : State) : (regrant s).workers = s.workers := rfl
@[simp] theorem regrant_aggMap (s : State) : (regrant s).aggMap = s.aggMap := rfl
@[simp] theorem regrant_lock (s : State) : (regrant s).lock = s.lock := rfl
@[simp] theorem regrant_rst (s : State) : (regrant s).rst = s.rst := rfl
@[simp] theorem regrant_host (s : State) : (regrant s).host = s.host := rfl
@[simp] theorem regrant_draws (s : State) : (regrant s).draws = s.draws := rfl
@[simp] theorem regrant_turn (s : State) : (regrant s).turn = s.turn + 1 := rfl
@[simp] theorem regrant_grant (s : State) : (regrant s).grant = agentOfNat (Config.freeTurn s.turn) := rfl

end Sys2Proof.Machine
end

