-- ==== Sys2Proof/Laws/Memory.lean ====
section
/-! SUPPORT. The laws of sparse memory and of the RAM windows: read after write, and every write keeps the canonical form. -/

namespace Sys2Proof.Machine

/-! ### Sparse memory -/

@[simp] theorem cellGet_nil (a : Nat) : cellGet ([] : List (Nat × α)) a = none := rfl

theorem cellGet_cellSet (m : List (Nat × α)) (a b : Nat) (x : α) :
    cellGet (cellSet m a x) b = if b = a then some x else cellGet m b := by
  induction m with
  | nil => simp only [cellSet, cellGet, eq_comm]
  | cons c r ih =>
    obtain ⟨k, v⟩ := c
    simp only [cellSet]
    split
    · simp only [cellGet, eq_comm]
    · split
      · rename_i _ h
        subst h
        simp only [cellGet]
        by_cases hb : a = b <;> simp [hb, eq_comm]
      · simp only [cellGet, ih]
        by_cases hk : k = b
        · subst hk
          rename_i _ h
          simp [Ne.symm h]
        · simp [hk]

theorem mem_cellSet {m : List (Nat × α)} {a : Nat} {x : α} {y : Nat × α} (h : y ∈ cellSet m a x) :
    y = (a, x) ∨ y ∈ m := by
  induction m with
  | nil => simpa [cellSet] using h
  | cons c r ih =>
    obtain ⟨k, v⟩ := c
    simp only [cellSet] at h
    split at h
    · simpa using h
    · split at h
      · rcases List.mem_cons.1 h with h | h <;> simp [h]
      · rcases List.mem_cons.1 h with h | h
        · simp [h]
        · rcases ih h with h | h <;> simp [h]

theorem cellSet_rising {m : List (Nat × α)} (h : m.Pairwise fun x y => x.1 < y.1) (a : Nat) (x : α) :
    (cellSet m a x).Pairwise fun x y => x.1 < y.1 := by
  induction m with
  | nil => simp [cellSet]
  | cons c r ih =>
    obtain ⟨k, v⟩ := c
    obtain ⟨hk, hr⟩ := List.pairwise_cons.1 h
    simp only [cellSet]
    split
    · rename_i ha
      refine List.pairwise_cons.2 ⟨fun y hy => ?_, h⟩
      rcases List.mem_cons.1 hy with rfl | hy
      · exact ha
      · exact Nat.lt_trans ha (hk y hy)
    · split
      · rename_i ha
        subst ha
        exact List.pairwise_cons.2 ⟨hk, hr⟩
      · refine List.pairwise_cons.2 ⟨fun y hy => ?_, ih hr⟩
        rcases mem_cellSet hy with rfl | hy
        · simp only
          omega
        · exact hk y hy

theorem cellGet_none_of_below {m : List (Nat × α)} {a : Nat} (h : ∀ y ∈ m, a < y.1) : cellGet m a = none := by
  induction m with
  | nil => rfl
  | cons c r ih =>
    have hc := h c (by simp)
    rw [cellGet, if_neg (Nat.ne_of_gt hc)]
    exact ih fun y hy => h y (by simp [hy])

theorem cellGet_cons_self (k : Nat) (v : α) (r : List (Nat × α)) : cellGet ((k, v) :: r) k = some v := by
  simp [cellGet]

theorem cellGet_cons_ne {k a : Nat} (v : α) (r : List (Nat × α)) (h : k ≠ a) :
    cellGet ((k, v) :: r) a = cellGet r a := by
  simp [cellGet, h]

/-- Equal memories are equal data: a canonical list is determined by what it reads as. -/
theorem cells_ext {m n : List (Nat × α)} (hm : m.Pairwise fun x y => x.1 < y.1)
    (hn : n.Pairwise fun x y => x.1 < y.1) (h : ∀ a, cellGet m a = cellGet n a) : m = n := by
  induction m generalizing n with
  | nil =>
    cases n with
    | nil => rfl
    | cons d r =>
      have := h d.1
      simp [cellGet] at this
  | cons c m ih =>
    obtain ⟨k, v⟩ := c
    obtain ⟨hk, hm'⟩ := List.pairwise_cons.1 hm
    cases n with
    | nil =>
      have := h k
      simp [cellGet] at this
    | cons d n =>
      obtain ⟨l, w⟩ := d
      obtain ⟨hl, hn'⟩ := List.pairwise_cons.1 hn
      have hkl : k = l := by
        rcases Nat.lt_trichotomy k l with hlt | heq | hgt
        · have h1 := h k
          rw [cellGet_cons_self, cellGet_cons_ne _ _ (Nat.ne_of_gt hlt),
            cellGet_none_of_below fun y hy => Nat.lt_trans hlt (hl y hy)] at h1
          cases h1
        · exact heq
        · have h1 := h l
          rw [cellGet_cons_self, cellGet_cons_ne _ _ (Nat.ne_of_gt hgt),
            cellGet_none_of_below fun y hy => Nat.lt_trans hgt (hk y hy)] at h1
          cases h1
      subst hkl
      have hvw : v = w := by
        have h1 := h k
        rw [cellGet_cons_self, cellGet_cons_self] at h1
        exact Option.some.inj h1
      subst hvw
      refine congrArg _ (ih hm' hn' fun a => ?_)
      by_cases ha : k = a
      · subst ha
        rw [cellGet_none_of_below hk, cellGet_none_of_below hl]
      · have h1 := h a
        rwa [cellGet_cons_ne _ _ ha, cellGet_cons_ne _ _ ha] at h1

/-! ### Bytes and words -/

theorem setByte_wf {m : List Host.Cell} (h : Memory.wf m) (a : Nat) (b : Byte) : Memory.wf (setByte m a b) :=
  cellSet_rising h a b

theorem setWord_wf {m : List Host.Cell} (h : Memory.wf m) (a : Nat) (v : Word) : Memory.wf (setWord m a v) :=
  setByte_wf (setByte_wf (setByte_wf (setByte_wf h _ _) _ _) _ _) _ _

theorem mem_setByte {m : List Host.Cell} {a : Nat} {b : Byte} {y : Host.Cell} (h : y ∈ setByte m a b) :
    y.1 = a ∨ y ∈ m := by
  rcases mem_cellSet h with rfl | h
  · exact .inl rfl
  · exact .inr h

theorem mem_setWord {m : List Host.Cell} {a : Nat} {v : Word} {y : Host.Cell} (h : y ∈ setWord m a v) :
    (a ≤ y.1 ∧ y.1 < a + 4) ∨ y ∈ m := by
  rcases mem_setByte h with h | h
  · left; omega
  rcases mem_setByte h with h | h
  · left; omega
  rcases mem_setByte h with h | h
  · left; omega
  rcases mem_setByte h with h | h
  · left; omega
  exact .inr h

/-- A RAM byte depends on the RAM's contents and its epoch only. -/
theorem ramByte_congr {s t : State} (hr : t.ram = s.ram) (he : t.ramEpoch = s.ramEpoch) (a : Nat) :
    ramByte t a = ramByte s a := by
  simp [ramByte, hr, he]

theorem ramWord_congr {s t : State} (hr : t.ram = s.ram) (he : t.ramEpoch = s.ramEpoch) (a : Nat) :
    ramWord t a = ramWord s a := by
  simp [ramWord, ramByte_congr hr he]

theorem ramByte_setByte (s : State) (a b : Nat) (x : Byte) :
    ramByte { s with ram := setByte s.ram a x } b = if b = a then x else ramByte s b := by
  simp only [ramByte, setByte, cellGet_cellSet]
  split <;> simp

/-- A word written reads back. -/
theorem ramWord_setWord (s : State) (a : Nat) (v : Word) : ramWord { s with ram := setWord s.ram a v } a = v := by
  have h4 : ∀ w : Word, w.extractLsb' 24 8 ++ w.extractLsb' 16 8 ++ w.extractLsb' 8 8 ++ w.extractLsb' 0 8 = w := by
    intro w
    ext i hi
    simp only [BitVec.getElem_append, BitVec.getElem_extractLsb']
    split
    · simp [BitVec.getLsbD_eq_getElem hi]
    · split
      · rw [← BitVec.getLsbD_eq_getElem hi]; congr 1; omega
      · split
        · rw [← BitVec.getLsbD_eq_getElem hi]; congr 1; omega
        · rw [← BitVec.getLsbD_eq_getElem hi]; congr 1; omega
  simp only [ramWord, ramByte, setWord, setByte, cellGet_cellSet]
  simp [h4]

/-- A word written leaves every byte outside it alone. -/
theorem ramByte_setWord_of_outside (s : State) {a b : Nat} (v : Word) (h : b < a ∨ a + 4 ≤ b) :
    ramByte { s with ram := setWord s.ram a v } b = ramByte s b := by
  simp only [ramByte, setWord, setByte, cellGet_cellSet]
  rw [if_neg (by omega), if_neg (by omega), if_neg (by omega), if_neg (by omega)]

/-- A word written leaves every other word that does not overlap it alone. -/
theorem ramWord_setWord_of_apart (s : State) {a b : Nat} (v : Word) (h : b + 4 ≤ a ∨ a + 4 ≤ b) :
    ramWord { s with ram := setWord s.ram a v } b = ramWord s b := by
  simp only [ramWord]
  rw [ramByte_setWord_of_outside s v (by omega), ramByte_setWord_of_outside s v (by omega),
    ramByte_setWord_of_outside s v (by omega), ramByte_setWord_of_outside s v (by omega)]

/-! ### The text commands' writes -/

/-- What a list of byte writes leaves in memory: the writes are to distinct addresses. -/
theorem cellGet_foldl_setByte (addr : Nat → Nat) (val : Nat → Byte) (hinj : ∀ i j, addr i = addr j → i = j)
    (m : List Host.Cell) (n a : Nat) :
    (∀ i < n, a = addr i →
      cellGet ((List.range n).foldl (fun m i => setByte m (addr i) (val i)) m) a = some (val i)) ∧
    ((∀ i < n, a ≠ addr i) →
      cellGet ((List.range n).foldl (fun m i => setByte m (addr i) (val i)) m) a = cellGet m a) := by
  induction n with
  | zero => simp
  | succ n ih =>
    rw [List.range_succ, List.foldl_append]
    simp only [List.foldl_cons, List.foldl_nil, setByte, cellGet_cellSet] at ih ⊢
    refine ⟨fun i hi ha => ?_, fun h => ?_⟩
    · by_cases hn : a = addr n
      · have : i = n := hinj _ _ (ha.symm.trans hn)
        simp [hn, this]
      · rw [if_neg hn]
        refine ih.1 i ?_ ha
        rcases Nat.lt_succ_iff_lt_or_eq.1 hi with h | h
        · exact h
        · exact absurd (h ▸ ha) hn
    · rw [if_neg (h n (by omega))]
      exact ih.2 fun i hi => h i (by omega)

theorem textOutOff_inj (i j : Nat) (h : textOutOff i = textOutOff j) : i = j := by
  simp only [textOutOff] at h; omega

/-- TEXT_OUT[i], i < n, holds the cipher of TEXT_IN[i] after the writes (43_block_cipher.md R208). -/
theorem textOut_writeUnits (cipher : Byte → MasterKey → Byte) (s t : State) (n : Nat)
    (ht : t.ram = writeUnits cipher s n) (i : Nat) (hi : i < n) :
    textOut t i = cipher (blockOf (textIn s i)) (masterKey s) := by
  have h := (cellGet_foldl_setByte textOutOff (fun i => cipher (blockOf (textIn s i)) (masterKey s)) textOutOff_inj
    s.ram n (textOutOff i)).1 i hi rfl
  simp [textOut, ramByte, ht, writeUnits, h]

/-- Every byte but TEXT_OUT[0 .. n-1][7:0] is as before the writes. -/
theorem ramByte_writeUnits (cipher : Byte → MasterKey → Byte) (s t : State) (n : Nat)
    (ht : t.ram = writeUnits cipher s n) (he : t.ramEpoch = s.ramEpoch) (a : Nat) (ha : ∀ i < n, a ≠ textOutOff i) :
    ramByte t a = ramByte s a := by
  have h := (cellGet_foldl_setByte textOutOff (fun i => cipher (blockOf (textIn s i)) (masterKey s)) textOutOff_inj
    s.ram n a).2 ha
  simp [ramByte, ht, he, writeUnits, h]

theorem writeUnits_wf (cipher : Byte → MasterKey → Byte) (s : State) (n : Nat) (h : Memory.wf s.ram) :
    Memory.wf (writeUnits cipher s n) := by
  unfold writeUnits
  induction n with
  | zero => simpa using h
  | succ n ih =>
    rw [List.range_succ, List.foldl_append]
    exact setByte_wf ih _ _

theorem mem_writeUnits {cipher : Byte → MasterKey → Byte} {s : State} {n : Nat} {y : Host.Cell}
    (h : y ∈ writeUnits cipher s n) : (∃ i < n, y.1 = textOutOff i) ∨ y ∈ s.ram := by
  unfold writeUnits at h
  induction n with
  | zero => right; simpa using h
  | succ n ih =>
    rw [List.range_succ, List.foldl_append] at h
    rcases mem_setByte h with h | h
    · exact .inl ⟨n, by omega, h⟩
    · rcases ih h with ⟨i, hi, h⟩ | h
      · exact .inl ⟨i, by omega, h⟩
      · exact .inr h

end Sys2Proof.Machine
end

