-- ==== Sys2Proof/Laws/Commands.lean ====
section
/-! SUPPORT. What each command can do, said once: when its checks pass, and its effect in either case. -/

namespace Sys2Proof.Machine

/-! ### Checks -/

theorem keyError_eq_none_iff {s : State} : keyError s = none ↔ s.key.toNat < 1024 := by
  unfold keyError
  split <;> simp <;> omega

theorem blockError_eq_none_iff {s : State} : blockError s = none ↔ s.din.toNat < 256 ∧ s.key.toNat < 1024 := by
  unfold blockError
  split
  · simp; omega
  · rw [keyError_eq_none_iff]; omega

theorem firstBadUnit_eq_none_iff {s : State} {n : Nat} :
    firstBadUnit s n = none ↔ ∀ i < n, (textIn s i).toNat < 256 := by
  simp [firstBadUnit]

/-- The unit firstBadUnit names is out of range and every lower one is in range. -/
theorem firstBadUnit_eq_some {s : State} {n i : Nat} (hi : i < n) (hbad : 256 ≤ (textIn s i).toNat)
    (hlow : ∀ j < i, (textIn s j).toNat < 256) : firstBadUnit s n = some i := by
  unfold firstBadUnit
  rw [List.find?_range_eq_some]
  refine ⟨by simpa using hbad, by simpa using hi, fun j hj => ?_⟩
  simpa using hlow j hj

theorem textError_eq_none_iff {s : State} :
    textError s = none ↔ s.textLen.toNat ≤ s.cfg.textDepth ∧ (∀ i < s.textLen.toNat, (textIn s i).toNat < 256) ∧
      s.key.toNat < 1024 := by
  unfold textError
  split
  · simp; omega
  · rename_i h
    split
    · rename_i i hb
      have : ¬ ∀ i < s.textLen.toNat, (textIn s i).toNat < 256 := fun hall => by
        rw [firstBadUnit_eq_none_iff.2 hall] at hb
        cases hb
      simp [this]
    · rename_i hb
      rw [keyError_eq_none_iff]
      have := firstBadUnit_eq_none_iff.1 hb
      exact ⟨fun hk => ⟨by omega, this, hk⟩, fun h => h.2.2⟩

theorem pairError_eq_none_iff {s : State} {i : Nat} :
    pairError s i = none ↔ (pairPt s i).toNat < 256 ∧ (pairCt s i).toNat < 256 := by
  unfold pairError
  split
  · simp; omega
  · split
    · simp; omega
    · simp; omega

theorem searchError_eq_none_iff {s : State} :
    searchError s = none ↔ s.pairCount ≠ 0 ∧ s.pairCount.toNat ≤ s.cfg.pairDepth ∧
      ∀ i < s.pairCount.toNat, (pairPt s i).toNat < 256 ∧ (pairCt s i).toNat < 256 := by
  unfold searchError
  split
  · rename_i h
    simp [h]
  · rename_i h
    split
    · simp; omega
    · rw [List.findSome?_eq_none_iff]
      simp only [List.mem_range, pairError_eq_none_iff]
      exact ⟨fun hall => ⟨h, by omega, hall⟩, fun h => h.2.2⟩

/-- The sub-cause of a check is never one of the two that no command raises (60_exceptions.md R276). -/
theorem commandError_kind {s : State} {e : CommandError}
    (h : blockError s = some e ∨ textError s = some e ∨ searchError s = some e) : e.1.kind = .invalidInput := by
  have hkey : ∀ {e : CommandError}, keyError s = some e → e.1.kind = .invalidInput := by
    intro e he
    unfold keyError at he
    split at he
    · cases he; rfl
    · cases he
  have hpair : ∀ {e : CommandError} {i : Nat}, pairError s i = some e → e.1.kind = .invalidInput := by
    intro e i he
    unfold pairError at he
    split at he
    · cases he; rfl
    · split at he
      · cases he; rfl
      · cases he
  rcases h with h | h | h
  · unfold blockError at h
    split at h
    · cases h; rfl
    · exact hkey h
  · unfold textError at h
    split at h
    · cases h; rfl
    · split at h
      · cases h; rfl
      · exact hkey h
  · unfold searchError at h
    split at h
    · cases h; rfl
    · split at h
      · cases h; rfl
      · obtain ⟨i, _, hi⟩ := List.exists_of_findSome?_eq_some h
        exact hpair hi

/-! ### Effects -/

theorem checked_some {err : Option CommandError} {e : CommandError} (h : err = some e) (f : State → State) (s : State) :
    checked err f s = commitError e s := by
  simp [checked, h]

theorem checked_none {err : Option CommandError} (h : err = none) (f : State → State) (s : State) :
    checked err f s = f s := by
  simp [checked, h]

/-- A command rule ends in its error commit or in its effect (30_encoding.md R111). -/
theorem checked_cases (err : Option CommandError) (f : State → State) (s : State) :
    (∃ e, err = some e ∧ checked err f s = commitError e s) ∨ (err = none ∧ checked err f s = f s) := by
  cases err with
  | none => exact .inr ⟨rfl, rfl⟩
  | some e => exact .inl ⟨e, rfl, rfl⟩

/-- Everything a block or text command, or the sequencer's step of a SEARCH, can do. -/
theorem exec_cases {i : Instr} {s t : State} (h : exec i s = .next t) :
    (∃ e, (blockError s = some e ∨ textError s = some e ∨ searchError s = some e) ∧ t = commitError e s) ∨
    (∃ b, (i = .encBlock ∨ i = .decBlock) ∧ blockError s = none ∧ t = commitOk { s with dout := b }) ∨
    (∃ f, (i = .encText ∨ i = .decText) ∧ textError s = none ∧
      t = commitOk { s with ram := writeUnits f s s.textLen.toNat }) ∨
    (i = .search ∧ searchError s = none ∧ t = launch s) := by
  cases i with
  | encBlock =>
    obtain rfl : blockCommand encrypt8 s = t := by simpa [exec, execEncBlock] using h
    rcases checked_cases (blockError s) (fun s => commitOk { s with dout := encrypt8 (blockOf s.din) (masterKey s) }) s with
      ⟨e, he, hc⟩ | ⟨he, hc⟩
    · exact .inl ⟨e, .inl he, hc⟩
    · exact .inr (.inl ⟨_, .inl rfl, he, hc⟩)
  | decBlock =>
    obtain rfl : blockCommand decrypt8 s = t := by simpa [exec, execDecBlock] using h
    rcases checked_cases (blockError s) (fun s => commitOk { s with dout := decrypt8 (blockOf s.din) (masterKey s) }) s with
      ⟨e, he, hc⟩ | ⟨he, hc⟩
    · exact .inl ⟨e, .inl he, hc⟩
    · exact .inr (.inl ⟨_, .inr rfl, he, hc⟩)
  | encText =>
    obtain rfl : textCommand encrypt8 s = t := by simpa [exec, execEncText] using h
    rcases checked_cases (textError s) (fun s => commitOk { s with ram := writeUnits encrypt8 s s.textLen.toNat }) s with
      ⟨e, he, hc⟩ | ⟨he, hc⟩
    · exact .inl ⟨e, .inr (.inl he), hc⟩
    · exact .inr (.inr (.inl ⟨_, .inl rfl, he, hc⟩))
  | decText =>
    obtain rfl : textCommand decrypt8 s = t := by simpa [exec, execDecText] using h
    rcases checked_cases (textError s) (fun s => commitOk { s with ram := writeUnits decrypt8 s s.textLen.toNat }) s with
      ⟨e, he, hc⟩ | ⟨he, hc⟩
    · exact .inl ⟨e, .inr (.inl he), hc⟩
    · exact .inr (.inr (.inl ⟨_, .inr rfl, he, hc⟩))
  | search =>
    obtain rfl : checked (searchError s) launch s = t := by simpa [exec, execSearch] using h
    rcases checked_cases (searchError s) launch s with ⟨e, he, hc⟩ | ⟨he, hc⟩
    · exact .inl ⟨e, .inr (.inr he), hc⟩
    · exact .inr (.inr (.inr ⟨rfl, he, hc⟩))

end Sys2Proof.Machine
end

