-- ==== Sys2Proof/Laws/Access.lean ====
section
/-! SUPPORT. What a host access, a host statement, an agent's move and a step can do, said once for each. -/

namespace Sys2Proof.Machine

/-! ### The address map -/

theorem windowIndex_eq_some {start size depth off i : Nat} (hs : 0 < size) :
    windowIndex start size depth off = some i ↔
      i < depth ∧ start + size * i ≤ off ∧ off < start + size * i + size := by
  unfold windowIndex
  constructor
  · intro h
    split at h
    · rename_i hr
      obtain rfl : (off - start) / size = i := by simpa using h
      have hlt : (off - start) / size < depth := by
        rw [Nat.div_lt_iff_lt_mul hs, Nat.mul_comm]
        omega
      have h1 := Nat.div_add_mod (off - start) size
      have h2 := Nat.mod_lt (off - start) hs
      exact ⟨hlt, by omega, by omega⟩
    · cases h
  · rintro ⟨hi, h1, h2⟩
    have hle : size * i + size ≤ size * depth := by
      rw [← Nat.mul_succ]
      exact Nat.mul_le_mul_left size hi
    rw [if_pos ⟨by omega, by omega⟩]
    congr 1
    rw [Nat.div_eq_of_lt_le]
    · rw [Nat.mul_comm]; omega
    · rw [Nat.mul_comm, Nat.mul_add]; omega

theorem pairLoc_eq_some {c : Config} {off : Nat} {l : Loc} :
    pairLoc c off = some l ↔ ∃ i < c.pairDepth,
      (l = .pairPt i ∧ pairPtOff i ≤ off ∧ off < pairPtOff i + 4) ∨
      (l = .pairCt i ∧ pairCtOff i ≤ off ∧ off < pairCtOff i + 4) := by
  simp only [pairLoc, Option.map_eq_some_iff, windowIndex_eq_some (by decide : 0 < 8), pairPtOff, pairCtOff]
  constructor
  · rintro ⟨i, ⟨hi, h1, h2⟩, rfl⟩
    refine ⟨i, hi, ?_⟩
    split
    · exact .inl ⟨rfl, by omega, by omega⟩
    · exact .inr ⟨rfl, by omega, by omega⟩
  · rintro ⟨i, hi, ⟨rfl, h1, h2⟩ | ⟨rfl, h1, h2⟩⟩
    · exact ⟨i, ⟨hi, by omega, by omega⟩, if_pos (by omega)⟩
    · exact ⟨i, ⟨hi, by omega, by omega⟩, if_neg (by omega)⟩

/-- A register of the map is a location of every core. -/
theorem registerMap_present (c : Config) {off : Nat} {l : Loc} (h : cellGet registerMap off = some l) :
    l.present c = true := by
  have hall : ∀ x ∈ registerMap, x.2.present c = true := by simp [registerMap, Loc.present]
  have hmem : ∀ m : List (Nat × Loc), (∀ x ∈ m, x.2.present c = true) → cellGet m off = some l →
      l.present c = true := by
    intro m
    induction m with
    | nil => intro _ h; cases h
    | cons x r ih =>
      intro hx hg
      unfold cellGet at hg
      split at hg
      · cases hg
        exact hx x (by simp)
      · exact ih (fun y hy => hx y (by simp [hy])) hg
  exact hmem _ hall h

/-- What is found at an offset is a location of the core (20_memory.md R71, R74). -/
theorem locate_present {c : Config} {off : Nat} {l : Loc} (h : locate c off = some l) : l.present c = true := by
  unfold locate at h
  simp only [Option.or_eq_some_iff, Option.map_eq_some_iff, windowIndex_eq_some (by decide : 0 < 4),
    pairLoc_eq_some] at h
  rcases h with h | ⟨_, h⟩
  · exact registerMap_present c h
  rcases h with ⟨i, hi, ⟨rfl, _⟩ | ⟨rfl, _⟩⟩ | ⟨_, h⟩
  · simpa [Loc.present] using hi
  · simpa [Loc.present] using hi
  rcases h with ⟨i, ⟨hi, _⟩, rfl⟩ | ⟨_, h⟩
  · simpa [Loc.present] using hi
  rcases h with ⟨i, ⟨hi, _⟩, rfl⟩ | ⟨_, h⟩
  · simpa [Loc.present] using hi
  rcases h with ⟨i, ⟨hi, _⟩, rfl⟩ | ⟨_, ⟨i, ⟨hi, _⟩, rfl⟩⟩
  · simpa [Loc.present] using hi
  · simpa [Loc.present] using hi

theorem target_present {c : Config} {size addr : Nat} {l : Loc} (h : target c size addr = some l) :
    l.present c = true := by
  unfold target at h
  split at h
  · exact locate_present h
  · cases h

/-! ### Host accesses -/

/-- A read changes at most the model's own count of draws (20_memory.md R76). -/
theorem memRead_state (s : State) (size addr : Nat) :
    (memRead s size addr).2 = s ∨ (memRead s size addr).2 = { s with draws := s.draws + 1 } := by
  unfold memRead
  split
  · unfold readAccess
    split
    · exact .inr rfl
    · exact .inl rfl
  · exact .inl rfl

/-- Everything a write that is not dropped can do, location by location. -/
inductive WriteEffect (s : State) (v : Word) : State → Prop where
  | ignored : WriteEffect s v s
  | dropped : s.status.busy = true → WriteEffect s v { s with status := s.status.markDropped }
  | ctrl : WriteEffect s v { s with ctrl := { irqEn := v.getLsbD 0 } }
  | ctrlDropped : s.status.busy = true →
      WriteEffect s v { s with ctrl := { irqEn := v.getLsbD 0 }, status := s.status.markDropped }
  | softReset : s.status.busy = false → WriteEffect s v (softReset s)
  | accept : s.status.busy = false → WriteEffect s v (accept v s)
  | status : WriteEffect s v { s with status := s.status.clear v }
  | operands (key din textLen pairCount workersReq : Word) : s.status.busy = false →
      WriteEffect s v { s with key := key, din := din, textLen := textLen, pairCount := pairCount, workersReq := workersReq }
  | ram (a : Nat) : s.status.busy = false → (∀ b, a ≤ b → b < a + 4 → inRam s.cfg b) →
      WriteEffect s v { s with ram := setWord s.ram a v }

theorem writeAccess_effect {s : State} {l : Loc} (v : Word) (hl : l.present s.cfg = true) :
    WriteEffect s v (writeAccess s l v) := by
  unfold writeAccess
  split
  · exact .ignored
  split
  · rename_i h
    exact .dropped (by simp_all)
  · rename_i h
    have hb : droppedWhileBusy l = true → s.status.busy = false := by
      intro hd
      simpa [hd] using h
    cases l with
    | ctrl =>
      simp only [writeLoc, writeCtrl]
      split
      · split
        · exact .ctrlDropped ‹_›
        · rename_i hn
          exact .softReset (by simpa using hn)
      · exact .ctrl
    | cmd => exact .accept (hb rfl)
    | status => exact .status
    | key => exact .operands v s.din s.textLen s.pairCount s.workersReq (hb rfl)
    | din => exact .operands s.key v s.textLen s.pairCount s.workersReq (hb rfl)
    | textLen => exact .operands s.key s.din v s.pairCount s.workersReq (hb rfl)
    | pairCount => exact .operands s.key s.din s.textLen v s.workersReq (hb rfl)
    | workers => exact .operands s.key s.din s.textLen s.pairCount v (hb rfl)
    | pairPt i =>
      refine .ram _ (hb rfl) fun b h1 h2 => ?_
      simp only [Loc.present, decide_eq_true_eq, pairPtOff] at hl h1 h2
      exact .inl ⟨by omega, by omega⟩
    | pairCt i =>
      refine .ram _ (hb rfl) fun b h1 h2 => ?_
      simp only [Loc.present, decide_eq_true_eq, pairCtOff] at hl h1 h2
      exact .inl ⟨by omega, by omega⟩
    | textIn i =>
      refine .ram _ (hb rfl) fun b h1 h2 => ?_
      simp only [Loc.present, decide_eq_true_eq, textInOff] at hl h1 h2
      exact .inr (.inl ⟨by omega, by omega⟩)
    | capNw => exact .ignored
    | capPairDepth => exact .ignored
    | capTextDepth => exact .ignored
    | errInfo => exact .ignored
    | dout => exact .ignored
    | workersEff => exact .ignored
    | matchCount => exact .ignored
    | elapsed => exact .ignored
    | matchKey j => exact .ignored
    | matchMap w => exact .ignored
    | textOut i => exact .ignored

theorem memWrite_effect (s : State) (size addr : Nat) (v : Word) : WriteEffect s v (memWrite s size addr v).2 := by
  unfold memWrite
  split
  · exact writeAccess_effect v (target_present ‹_›)
  · exact .ignored

/-- While `rst` is asserted no write changes anything (70_reset_and_hazards.md R300). -/
theorem memWrite_held {s : State} (h : s.rst = true) (size addr : Nat) (v : Word) : (memWrite s size addr v).2 = s := by
  unfold memWrite
  split
  · simp [writeAccess, h]
  · rfl

/-- The reset input drives the core to its reset state, or is released where it was not asserted (R300). -/
theorem driveRst_cases (s : State) (asserted : Bool) :
    ((asserted = true ∨ s.rst = true) ∧ driveRst s asserted = { hardReset s with rst := asserted }) ∨
    (asserted = false ∧ s.rst = false ∧ driveRst s asserted = s) := by
  unfold driveRst
  cases asserted <;> cases h : s.rst <;> simp

/-! ### The HOST agent -/

/-- A host statement changes the core as a read, a write or a hardware reset does, and then only the HOST agent. -/
theorem hostStmt_cases {s t : State} {st : HostStmt} (h : hostStmt s st = .next t) :
    (∃ ha, t = { s with host := ha }) ∨
    (∃ ha, t = { s with draws := s.draws + 1, host := ha }) ∨
    (∃ v u ha, WriteEffect s v u ∧ (s.rst = true → u = s) ∧ t = { u with host := ha }) ∨
    (∃ asserted ha, st = .rst asserted ∧ (asserted = true ∨ s.rst = true) ∧
      t = { hardReset s with rst := asserted, host := ha }) := by
  have hread : ∀ size addr name, hostRead s size addr name = t →
      (∃ ha, t = { s with host := ha }) ∨ (∃ ha, t = { s with draws := s.draws + 1, host := ha }) := by
    rintro size addr name rfl
    rcases memRead_state s size addr with hm | hm
    · left
      cases name <;> simp only [hostRead, hm] <;> exact ⟨_, rfl⟩
    · right
      cases name <;> simp only [hostRead, hm] <;> exact ⟨_, rfl⟩
  have hwrite : ∀ size addr v, hostWrite s size addr v = t →
      ∃ v u ha, WriteEffect s v u ∧ (s.rst = true → u = s) ∧ t = { u with host := ha } :=
    fun size addr v hw => ⟨v, _, _, memWrite_effect s size addr v, fun h => memWrite_held h size addr v, hw.symm⟩
  cases st with
  | wr loc imm =>
    simp only [hostStmt, Host.Outcome.next.injEq] at h
    unfold hostAccess at h
    split at h
    · exact .inr (.inr (.inl (hwrite _ _ _ h)))
    · exact .inl ⟨_, h.symm⟩
  | rd loc name =>
    simp only [hostStmt, Host.Outcome.next.injEq] at h
    unfold hostAccess at h
    split at h
    · rcases hread _ _ _ h with h | h
      · exact .inl h
      · exact .inr (.inl h)
    · exact .inl ⟨_, h.symm⟩
  | label l =>
    simp only [hostStmt, Host.Outcome.next.injEq] at h
    exact .inl ⟨_, h.symm⟩
  | bne name mask value l =>
    simp only [hostStmt, hostBranch] at h
    split at h
    · cases h
    · split at h
      · exact .inl ⟨_, (Host.Outcome.next.inj h).symm⟩
      · split at h
        · cases h
        · exact .inl ⟨_, (Host.Outcome.next.inj h).symm⟩
  | rawRead size addr =>
    simp only [hostStmt, Host.Outcome.next.injEq] at h
    rcases hread _ _ _ h with h | h
    · exact .inl h
    · exact .inr (.inl h)
  | rawWrite size addr v =>
    simp only [hostStmt, Host.Outcome.next.injEq] at h
    exact .inr (.inr (.inl (hwrite _ _ _ h)))
  | rst asserted =>
    simp only [hostStmt, Host.Outcome.next.injEq] at h
    rcases driveRst_cases s asserted with ⟨ha, hd⟩ | ⟨_, _, hd⟩
    · rw [hd] at h
      exact .inr (.inr (.inr ⟨asserted, _, rfl, ha, h.symm⟩))
    · rw [hd] at h
      exact .inl ⟨_, h.symm⟩

/-! ### Moves -/

/-- Everything the sequencer's move can do. -/
theorem seqMove_cases {s : State} {o : Host.Outcome State Fault Refusal} (h : seqMove s = some o) :
    (∃ i, s.phase = .exec ∧ s.op = .cmd i ∧ o = exec i s) ∨
    (∃ why, s.phase = .exec ∧ s.op = .illegal why ∧ o = .next (commitError (illegalSubCause why, 0) s)) ∨
    (s.phase = .searchRun ∧ allMerged s = true ∧ o = .next (join s)) := by
  unfold seqMove at h
  split at h
  · cases h
  · rename_i hp
    split at h
    · exact .inl ⟨_, hp, ‹_›, (Option.some.inj h).symm⟩
    · exact .inr (.inl ⟨_, hp, ‹_›, (Option.some.inj h).symm⟩)
  · rename_i hp
    split at h
    · exact .inr (.inr ⟨hp, ‹_›, (Option.some.inj h).symm⟩)
    · cases h

/-- Everything a worker's move can do (44_bruteforce.md R236, R237, R244). -/
theorem workerMove_cases {s t : State} {w : Nat} (h : workerMove w s = some t) :
    ∃ x, s.workers[w]? = some x ∧
      ((x.phase = .run ∧ x.k < x.hi ∧ t = { s with workers := s.workers.set w (testStep s x) }) ∨
       (x.phase = .run ∧ x.k = x.hi ∧ t = { s with workers := s.workers.set w { x with phase := .mergePending } }) ∨
       (x.phase = .mergePending ∧ s.lock = .free ∧ t = mergeStep s w x)) := by
  unfold workerMove at h
  split at h
  · cases h
  · rename_i x hx
    refine ⟨x, hx, ?_⟩
    split at h
    · split at h
      · exact .inl ⟨‹_›, ‹_›, (Option.some.inj h).symm⟩
      · split at h
        · exact .inr (.inl ⟨‹_›, ‹_›, (Option.some.inj h).symm⟩)
        · cases h
    · split at h
      · exact .inr (.inr ⟨‹_›, ‹_›, (Option.some.inj h).symm⟩)
      · cases h
    · cases h
    · cases h

/-- An agent's move that answers a next state is the host's statement, the sequencer's move or a worker's. -/
theorem agentMove_next {a : Agent} {s t : State} (h : agentMove a s = some (.next t)) :
    (a = .host ∧ ∃ st, s.host.prog[s.host.pc]? = some st ∧ hostStmt s st = .next t) ∨
    (a = .seq ∧ seqMove s = some (.next t)) ∨
    (∃ w, a = .worker w ∧ workerMove w s = some t) := by
  cases a with
  | host =>
    simp only [agentMove, hostMove] at h
    split at h
    · cases h
    · exact .inl ⟨rfl, _, ‹_›, Option.some.inj h⟩
  | seq => exact .inr (.inl ⟨rfl, h⟩)
  | worker w =>
    simp only [agentMove, Option.map_eq_some_iff] at h
    obtain ⟨u, hu, he⟩ := h
    cases he
    exact .inr (.inr ⟨w, rfl, hu⟩)

theorem chosenAgent_enabled {s : State} {a : Agent} (h : chosenAgent s = some a) : (agentMove a s).isSome = true := by
  unfold chosenAgent at h
  split at h
  · cases h; assumption
  · exact List.find?_some (p := fun a => (agentMove a s).isSome) h

theorem mapNext_eq_next {f : State → State} {o : Host.Outcome State Fault Refusal} {t : State} :
    mapNext f o = .next t ↔ ∃ u, o = .next u ∧ t = f u := by
  cases o with
  | next u =>
    simp only [mapNext, Host.Outcome.next.injEq]
    exact ⟨fun h => ⟨u, rfl, h.symm⟩, fun ⟨v, hv, h⟩ => by rw [hv, h]⟩
  | fault r => simp [mapNext]
  | refused r => simp [mapNext]

/-- A step that answers a next state leaves the state as it is or is one agent's move and the offer of the next. -/
theorem step_cases {s t : State} (h : step s = .next t) :
    t = s ∨ ∃ a u, chosenAgent s = some a ∧ agentMove a s = some (.next u) ∧ t = regrant u := by
  unfold step at h
  split at h
  · exact .inl (Host.Outcome.next.inj h).symm
  · rename_i a ha
    split at h
    · exact .inl (Host.Outcome.next.inj h).symm
    · rename_i o ho
      obtain ⟨u, rfl, rfl⟩ := mapNext_eq_next.1 h
      exact .inr ⟨a, u, ha, ho, rfl⟩

/-- The step when the agent that moves is known. -/
theorem step_of_chosen {s : State} {a : Agent} {o : Host.Outcome State Fault Refusal} (ha : chosenAgent s = some a)
    (ho : agentMove a s = some o) : step s = mapNext regrant o := by
  simp [step, ha, ho]

end Sys2Proof.Machine
end

