-- ==== Sys2Proof/Laws/PerInstr.lean ====
section
/-! SUPPORT. Statements made one instruction at a time. -/

namespace Sys2Proof.Laws.EncodeDecode

/-- The encoding of `i` is a well-formed command word (30_encoding.md R103), and it decodes to `i`. -/
def Statement (i : Instr) : Prop :=
  i.wf = true → commandWordWf (encode i) = true ∧ decode (encode i) = .cmd i

theorem encBlock : Statement .encBlock := fun _ => ⟨by decide, by decide⟩
theorem decBlock : Statement .decBlock := fun _ => ⟨by decide, by decide⟩
theorem encText : Statement .encText := fun _ => ⟨by decide, by decide⟩
theorem decText : Statement .decText := fun _ => ⟨by decide, by decide⟩
theorem search : Statement .search := fun _ => ⟨by decide, by decide⟩

end Sys2Proof.Laws.EncodeDecode
end

