-- ==== Sys2Proof/Laws/Search.lean ====
section
/-! SUPPORT. SEARCH: the worker count, the key ranges, the match buffers, and what each of them depends on. -/

namespace Sys2Proof.Machine

/-! ### What a SEARCH depends on -/

theorem sameInputs_refl (s : State) : sameInputs s s := ⟨rfl, rfl, rfl, rfl, rfl, rfl, rfl, rfl⟩

theorem sameInputs_trans {s t u : State} (h : sameInputs s t) (h' : sameInputs t u) : sameInputs s u := by
  obtain ⟨a1, a2, a3, a4, a5, a6, a7, a8⟩ := h
  obtain ⟨b1, b2, b3, b4, b5, b6, b7, b8⟩ := h'
  exact ⟨b1.trans a1, b2.trans a2, b3.trans a3, b4.trans a4, b5.trans a5, b6.trans a6, b7.trans a7, b8.trans a8⟩

theorem pairPt_congr {s t : State} (hr : t.ram = s.ram) (he : t.ramEpoch = s.ramEpoch) : pairPt t = pairPt s := by
  funext i
  exact ramWord_congr hr he _

theorem pairCt_congr {s t : State} (hr : t.ram = s.ram) (he : t.ramEpoch = s.ramEpoch) : pairCt t = pairCt s := by
  funext i
  exact ramWord_congr hr he _

theorem matchesKey_congr {s t : State} (hr : t.ram = s.ram) (he : t.ramEpoch = s.ramEpoch)
    (hp : t.pairCount = s.pairCount) (k : Nat) : matchesKey t k = matchesKey s k := by
  unfold matchesKey
  rw [pairPt_congr hr he, pairCt_congr hr he, hp]

theorem effWorkers_congr {s t : State} (hc : t.cfg = s.cfg) (hw : t.workersReq = s.workersReq) :
    effWorkers t = effWorkers s := by
  simp only [effWorkers, hc, hw]

theorem searchError_congr {s t : State} (hc : t.cfg = s.cfg) (hr : t.ram = s.ram) (he : t.ramEpoch = s.ramEpoch)
    (hp : t.pairCount = s.pairCount) : searchError t = searchError s := by
  have hpe : pairError t = pairError s := by
    funext i
    unfold pairError
    rw [pairPt_congr hr he, pairCt_congr hr he]
  unfold searchError
  rw [hc, hp, hpe]

/-! ### The worker count and the ranges -/

theorem effWorkers_pos {s : State} (h : 1 ≤ s.cfg.nw) : 1 ≤ effWorkers s := by
  unfold effWorkers clampWorkers
  omega

theorem effWorkers_le (s : State) : effWorkers s ≤ s.cfg.nw := by
  unfold effWorkers clampWorkers
  omega

/-- The chunks cover the key space: chunk = ceil(1024 / W) (44_bruteforce.md R233). -/
theorem chunkSize_covers {n : Nat} (h : 1 ≤ n) : 1024 ≤ n * chunkSize n := by
  have h1 := Nat.div_add_mod (1024 + n - 1) n
  have h2 := Nat.mod_lt (1024 + n - 1) (show 0 < n by omega)
  unfold chunkSize
  omega

theorem chunkSize_pos {n : Nat} (h : 1 ≤ n) : 1 ≤ chunkSize n := by
  have := chunkSize_covers h
  rcases Nat.eq_zero_or_pos (chunkSize n) with h0 | h0
  · rw [h0] at this; omega
  · exact h0

theorem rangeHi_eq (n w : Nat) : rangeHi n w = rangeLo n (w + 1) := rfl

theorem rangeHi_le (n w : Nat) : rangeHi n w ≤ 1024 := Nat.min_le_left _ _

theorem rangeLo_le_rangeHi (n w : Nat) : rangeLo n w ≤ rangeHi n w := by
  have : w * chunkSize n ≤ (w + 1) * chunkSize n := Nat.mul_le_mul_right _ (by omega)
  unfold rangeLo rangeHi
  omega

/-- Every key is in the range of some launched worker (R233). -/
theorem exists_range {n k : Nat} (hn : 1 ≤ n) (hk : k < 1024) :
    ∃ w < n, rangeLo n w ≤ k ∧ k < rangeHi n w := by
  have hc := chunkSize_pos hn
  have hcov := chunkSize_covers hn
  refine ⟨k / chunkSize n, ?_, ?_, ?_⟩
  · rw [Nat.div_lt_iff_lt_mul hc]
    omega
  · have := Nat.div_mul_le_self k (chunkSize n)
    unfold rangeLo
    omega
  · have h1 := Nat.div_add_mod k (chunkSize n)
    have h2 := Nat.mod_lt k hc
    unfold rangeHi
    rw [Nat.add_mul, Nat.mul_comm]
    omega

/-! ### Match buffers -/

theorem getLsbD_addKey (m : KeySet) (k j : Nat) (hj : j < 1024) :
    (addKey m k).getLsbD j = (m.getLsbD j || decide (j = k)) := by
  unfold addKey
  rw [BitVec.getLsbD_or]
  congr 1
  rw [BitVec.getLsbD_shiftLeft]
  by_cases h : j = k
  · subst h
    simp [hj]
  · by_cases hlt : j < k
    · simp [hlt, h]
    · have : j - k ≠ 0 := by omega
      simp only [hj, hlt, decide_true, Bool.true_and, decide_false, Bool.not_false, h]
      rw [show (1 : KeySet) = 1#1024 from rfl, BitVec.getLsbD_one]
      simp [this]

@[simp] theorem testStep_phase (s : State) (x : Worker) : (testStep s x).phase = x.phase := rfl
@[simp] theorem testStep_lo (s : State) (x : Worker) : (testStep s x).lo = x.lo := rfl
@[simp] theorem testStep_hi (s : State) (x : Worker) : (testStep s x).hi = x.hi := rfl
@[simp] theorem testStep_k (s : State) (x : Worker) : (testStep s x).k = x.k + 1 := rfl

/-- A test step adds the tested key to LBUF exactly when it matches (R236). -/
theorem getLsbD_testStep (s : State) (x : Worker) (j : Nat) (hj : j < 1024) :
    (testStep s x).lbuf.getLsbD j = (x.lbuf.getLsbD j || (decide (j = x.k) && matchesKey s x.k)) := by
  unfold testStep
  cases h : matchesKey s x.k
  · simp
  · simp [getLsbD_addKey _ _ _ hj]

/-- allMerged says that every launched worker is there and MERGED (R245). -/
theorem allMerged_iff {s : State} :
    allMerged s = true ↔ ∀ w < effWorkers s, ∃ x, s.workers[w]? = some x ∧ x.phase = .merged := by
  simp only [allMerged, List.all_eq_true, List.mem_range]
  refine forall₂_congr fun w _ => ?_
  unfold isMerged
  cases s.workers[w]? with
  | none => simp
  | some x => simp

end Sys2Proof.Machine
end

