-- ==== Sys2Proof/Tests/Slice0.lean ====
section
/-! SUPPORT. The model's own tests: the checks refuse ill-formed terms, words written out from the spec decode, the worked
values of 95_test_vectors.md, and for every statement with hypotheses a concrete state and operands that meet them. -/

namespace Sys2Proof.Tests

open Sys2Proof Sys2Proof.Machine

/-! ### WellFormed refuses -/

theorem test_wf_reference : Config.reference.wf = true := by decide
theorem test_wf_no_worker : ({ Config.reference with nw := 0 } : Config).wf = false := by decide
theorem test_wf_too_many_workers : ({ Config.reference with nw := 1025 } : Config).wf = false := by decide
theorem test_wf_no_pair : ({ Config.reference with pairDepth := 0 } : Config).wf = false := by decide
theorem test_wf_too_many_pairs : ({ Config.reference with pairDepth := 513 } : Config).wf = false := by decide
theorem test_wf_no_text : ({ Config.reference with textDepth := 0 } : Config).wf = false := by decide
theorem test_wf_too_much_text : ({ Config.reference with textDepth := 65537 } : Config).wf = false := by decide
theorem test_wf_base_misaligned : ({ Config.reference with base := 0x80000 } : Config).wf = false := by decide
theorem test_wf_table_entry_zero : tableWf 4 [2, 0, 3, 1] = false := by decide
theorem test_wf_table_entry_past_end : tableWf 4 [2, 5, 3, 1] = false := by decide
theorem test_wf_word_op_zero : commandWordWf 0x00000000 = false := by decide
theorem test_wf_word_op_six : commandWordWf 0x00000006 = false := by decide
theorem test_wf_word_reserved_bit : commandWordWf 0x00000015 = false := by decide
theorem test_wf_program_label_twice : hostProgramWf [.label 1, .label 1] = false := by decide
theorem test_wf_program_label_missing : hostProgramWf [.label 1, .bne 0 0 0 2] = false := by decide
theorem test_wf_program_wait : hostProgramWf ((Pseudo.run .search).expand 1 0) = true := by decide

/-! ### Decoding: bits written out from 30_encoding.md R100 and R103 (RSVD then OP) -/

theorem test_decode_encBlock : decode 0b0000000000000000000000000000_0001 = .cmd .encBlock := by decide
theorem test_decode_decBlock : decode 0b0000000000000000000000000000_0010 = .cmd .decBlock := by decide
theorem test_decode_encText : decode 0b0000000000000000000000000000_0011 = .cmd .encText := by decide
theorem test_decode_decText : decode 0b0000000000000000000000000000_0100 = .cmd .decText := by decide
theorem test_decode_search : decode 0b0000000000000000000000000000_0101 = .cmd .search := by decide
theorem test_decode_reserved_first : decode 0b1000000000000000000000000000_0000 = .illegal .reservedBits := by decide
theorem test_decode_table_word : decodeTableWord 32 5 = some .search ∧ decodeTableWord 32 6 = none := by decide

/-! ### The states the tests start from -/

/-- One worker, two pairs, four text units, at BASE 0x100000. -/
def cfg : Config := { nw := 1, pairDepth := 2, textDepth := 4, base := 0x100000 }

/-- An idle worker. -/
def w0 : Worker := { phase := .idle, lo := 0, hi := 0, k := 0, lbuf := 0 }

/-- Both windows of inputs written: the pairs (0xA5, 0x6E), (0x00, 0x6A) and the text "Hi!" with 0xFF after it. -/
def data : List Host.Cell :=
  [(pairPtOff 0, (0xA5 : Word)), (pairCtOff 0, 0x6E), (pairPtOff 1, 0), (pairCtOff 1, 0x6A), (textInOff 0, 0x48),
    (textInOff 1, 0x69), (textInOff 2, 0x21), (textInOff 3, 0xFF)].foldl (fun m p => setWord m p.1 p.2) []

/-- The clean-entry state (70_reset_and_hazards.md R305) with KEY = 0x282, DIN = 0xA5, three units and one pair. -/
def idle : State :=
  { State.resetOf cfg 0 with
    key := 0x282
    din := 0xA5
    textLen := 3
    pairCount := 1
    workersReq := 1
    ram := data
    workers := [w0]
    aggMap := 0 }

/-- `s` with a 32-bit RAM entry written. -/
def poke (s : State) (a : Nat) (v : Word) : State := { s with ram := setWord s.ram a v }

/-- `s` once the sequencer has run command `i`, accepted in `s`. -/
def after (i : Instr) (s : State) : State :=
  match exec i (accept (encode i) s) with
  | .next t => t
  | .fault _ => s
  | .refused _ => s

/-- `s` with the HOST agent at the only statement of its program. -/
def driven (s : State) (st : HostStmt) : State := { s with host := { s.host with prog := [st], pc := 0 }, grant := .host }

/-! ### 95_test_vectors.md sections 2.2 and 2.3 -/

theorem test_subkeys : genSubkeys 0x31E = (0xE9, 0xAA) ∧ genSubkeys 0x200 = (0x80, 0x02) := by decide +kernel
theorem test_round_function : roundF 0b0101 0b10100100 = 0b1010 ∧ roundF 0b0011 0b10010010 = 0b1010 ∧
    roundF 0b0000 0b11111111 = 0b0111 := by decide +kernel
theorem test_sbox_column_order : sboxCol 0b0100 = 2 ∧ sbox sboxS1 0b0110 = 2 ∧ sbox sboxS2 0b1001 = 2 := by
  decide +kernel

/-! ### 95_test_vectors.md sections 2.4 to 2.7 and 3.4 -/

theorem test_encBlock : (after .encBlock idle).dout = 0x6E ∧ (after .encBlock idle).status.word = 0x00000102 := by
  decide +kernel
theorem test_encBlock_din_first :
    (after .encBlock { idle with key := 0x400, din := 0x100 }).status.word = 0x00000116 ∧
    (after .encBlock { idle with key := 0x400, din := 0x100 }).errInfo.word = 0x00000002 := by decide +kernel
theorem test_decBlock : (after .decBlock idle).dout = 0x5B ∧ (after .decBlock idle).status.word = 0x00000202 := by
  decide +kernel
theorem test_decBlock_key_range : (after .decBlock { idle with key := 0x400 }).status.word = 0x00000216 ∧
    (after .decBlock { idle with key := 0x400 }).errInfo.word = 0x00000001 := by decide +kernel
theorem test_encText : (List.range 3).map (textOut (after .encText idle)) = [0xE4, 0x83, 0xAD] ∧
    (after .encText idle).status.word = 0x00000302 := by decide +kernel
theorem test_encText_unit_range :
    (after .encText (poke { idle with key := 0x400 } (textInOff 1) 0x100)).errInfo.word = 0x00010004 := by decide +kernel
theorem test_decText : (List.range 2).map (textOut (after .decText
    (poke (poke { idle with textLen := 2 } (textInOff 0) 0xE4) (textInOff 1) 0x83))) = [0x48, 0x69] := by decide +kernel
theorem test_decText_len_range : (after .decText { idle with textLen := 5, key := 0x400 }).errInfo.word = 0x00000003 := by
  decide +kernel
theorem test_search_matches : [0x27B, 0x282, 0x281].map (matchesKey idle) = [true, true, false] ∧
    [0x27B, 0x282].map (matchesKey { idle with pairCount := 2 }) = [false, true] := by decide +kernel
theorem test_search_pt_range :
    (after .search (poke { idle with pairCount := 2 } (pairPtOff 1) 0x100)).errInfo.word = 0x00010007 ∧
    (after .search { idle with pairCount := 0 }).status.word = 0x00000516 := by decide +kernel
theorem test_illegal_word : (seqMove (accept 0x00000015 idle)).map (fun o => match o with
    | .next t => (t.status.word, t.errInfo.word)
    | .fault _ => (0, 0)
    | .refused _ => (0, 0)) = some (0x00000526, 0x0000000A) := by decide +kernel
theorem test_ack_keeps_error : (Status.clear (Status.mk false true true .invalidInput 5) 0x0000000A).word = 0x00000514 := by
  decide +kernel
theorem test_read_unmapped : (memRead idle 4 0x10000C).1 = .busError ∧ (memRead idle 2 0x100018).1 = .busError ∧
    (memRead idle 4 0x100014).1 = .data 0 := by decide +kernel
theorem test_match_views : (matchCount (addKey (addKey 0 0x382) 0x282), matchKey (addKey (addKey 0 0x382) 0x282) 0,
    matchKey (addKey (addKey 0 0x382) 0x282) 1, matchKey (addKey (addKey 0 0x382) 0x282) 2,
    matchMapWord (addKey (addKey 0 0x382) 0x282) 20) = (2, 0x282, 0x382, 0, 0x00000004) := by decide +kernel

/-! ### States that meet the invariant -/

/-- ENC_BLOCK accepted, SEARCH accepted, and SEARCH launched. -/
def encoding : State := accept 1 idle
def searching : State := accept 5 idle
def launched : State := launch searching

/-- The keys below n that match the pairs of `s`. -/
def matchSet (s : State) (n : Nat) : KeySet :=
  (List.range n).foldl (fun m k => if matchesKey s k then addKey m k else m) 0

/-- The launched SEARCH with every worker MERGED. -/
def joinable : State :=
  { launched with
    workers := [{ phase := .merged, lo := 0, hi := 1024, k := 1024, lbuf := matchSet idle 1024 }]
    aggMap := matchSet idle 1024 }

theorem getLsbD_matchSet (s : State) (n j : Nat) (hj : j < 1024) :
    (matchSet s n).getLsbD j = (decide (j < n) && matchesKey s j) := by
  unfold matchSet
  induction n with
  | zero => simp
  | succ n ih =>
    rw [List.range_succ, List.foldl_append, List.foldl_cons, List.foldl_nil]
    cases hm : matchesKey s n
    · rw [if_neg (by simp), ih]
      by_cases h : j = n
      · subst h; simp [hm]
      · have : decide (j < n + 1) = decide (j < n) := by simp only [decide_eq_decide]; omega
        rw [this]
    · rw [if_pos rfl, getLsbD_addKey _ _ _ hj, ih]
      by_cases h : j = n
      · subst h; simp [hm]
      · have : decide (j < n + 1) = decide (j < n) := by simp only [decide_eq_decide]; omega
        rw [this]
        simp [h]

theorem inv_idle : Inv idle where
  cfgWf := by decide
  ramWf := by decide
  ramMapped := by unfold inRam; decide +kernel
  busyIff := by decide
  busyClear := by decide
  errInfoKind := by decide
  noProgrammingError := by decide
  workerCount := by decide
  lockFree := rfl
  workersIdle := by decide
  searching := fun h => absurd h (by decide)
  held := fun h => absurd h (by decide)

theorem inv_encoding : Inv encoding :=
  { inv_idle with
    busyIff := by decide
    busyClear := by decide
    errInfoKind := by decide
    noProgrammingError := by decide
    workersIdle := by decide
    searching := fun h => absurd h (by decide)
    held := fun h => absurd h (by decide) }

theorem inv_searching : Inv searching :=
  { inv_idle with
    busyIff := by decide
    busyClear := by decide
    errInfoKind := by decide
    noProgrammingError := by decide
    workersIdle := by decide
    searching := fun h => absurd h (by decide)
    held := fun h => absurd h (by decide) }

theorem launched_workers : launched.workers = [{ phase := .run, lo := 0, hi := 1024, k := 0, lbuf := 0 }] := by decide +kernel

theorem inv_launched : Inv launched :=
  { inv_idle with
    busyIff := by decide
    busyClear := by decide
    errInfoKind := by decide
    noProgrammingError := by decide
    workersIdle := by decide
    held := fun h => absurd h (by decide)
    searching := fun _ => by
      refine ⟨by decide, fun w x hx => ?_, fun k _ => ?_⟩
      · rw [launched_workers] at hx
        cases w with
        | zero =>
          obtain rfl : _ = x := by simpa using hx
          refine ⟨by decide, by decide, by decide, by decide, by decide, by decide, fun k _ => by simp⟩
        | succ w => simp at hx
      · refine ⟨fun h => ?_, fun ⟨w, x, _, hx, hm, _⟩ => ?_⟩
        · have h0 : launched.aggMap = 0 := rfl
          rw [h0] at h
          simp at h
        · rw [launched_workers] at hx
          cases w with
          | zero =>
            obtain rfl : _ = x := by simpa using hx
            cases hm
          | succ w => simp at hx }

theorem inv_joinable : Inv joinable :=
  { inv_launched with
    workersIdle := fun h => absurd rfl h
    held := fun h => absurd h (by decide)
    searching := fun _ => by
      refine ⟨by decide, fun w x hx => ?_, fun k hk => ?_⟩
      · cases w with
        | zero =>
          obtain rfl : _ = x := by simpa [joinable] using hx
          refine ⟨by decide, by decide, by decide, by decide, by decide, by decide, fun k hk => ?_⟩
          rw [getLsbD_matchSet _ _ _ hk]
          simp only [Nat.zero_le, true_and]
          rfl
        | succ w => simp [joinable] at hx
      · refine ⟨fun h => ⟨0, _, by decide, rfl, rfl, h⟩, fun ⟨w, x, _, hx, _, hb⟩ => ?_⟩
        cases w with
        | zero =>
          obtain rfl : _ = x := by simpa [joinable] using hx
          exact hb
        | succ w => simp [joinable] at hx }

theorem joinable_merged : allMerged joinable = true := by decide

theorem seqMove_join {s : State} (hp : s.phase = .searchRun) (hm : allMerged s = true) :
    seqMove s = some (.next (join s)) := by
  simp only [seqMove, hp, hm, if_true]

theorem seqMove_joinable : seqMove joinable = some (.next (join joinable)) := seqMove_join rfl joinable_merged

/-! ### Witnesses: for each statement, a concrete state and operands that meet its hypotheses -/

/-- The state after an outcome. -/
def next (o : Host.Outcome State Fault Refusal) : State :=
  match o with
  | .next t => t
  | .fault _ => idle
  | .refused _ => idle

theorem exec_next (i : Instr) (s : State) : exec i s = .next (next (exec i s)) := by cases i <;> rfl

theorem wit_DecryptionUndoesEncryption :
    idle.din.toNat < 256 ∧ idle.key.toNat < 1024 ∧ (∃ t u v, exec .encBlock idle = .next t ∧ u.key = idle.key ∧
      u.din = t.dout.setWidth 32 ∧ exec .decBlock u = .next v) :=
  ⟨by decide, by decide, _, { idle with din := (next (exec .encBlock idle)).dout.setWidth 32 }, _, exec_next _ _, rfl,
    rfl, exec_next _ _⟩

/-- The clauses' words at the ends of their ranges. -/
theorem wit_DecodeIsTheListedFunction :
    (0x00000010 : Word).toNat / 16 ≠ 0 ∧ (0xFFFFFFFF : Word).toNat / 16 ≠ 0 ∧
    (1 : Word).toNat / 16 = 0 ∧ (1 : Word).toNat % 16 = 1 ∧ (2 : Word).toNat / 16 = 0 ∧ (2 : Word).toNat % 16 = 2 ∧
    (3 : Word).toNat / 16 = 0 ∧ (3 : Word).toNat % 16 = 3 ∧ (4 : Word).toNat / 16 = 0 ∧ (4 : Word).toNat % 16 = 4 ∧
    (5 : Word).toNat / 16 = 0 ∧ (5 : Word).toNat % 16 = 5 ∧ (0 : Word).toNat / 16 = 0 ∧ (0 : Word).toNat % 16 = 0 ∧
    (6 : Word).toNat / 16 = 0 ∧ 6 ≤ (6 : Word).toNat % 16 ∧ (15 : Word).toNat / 16 = 0 ∧ 6 ≤ (15 : Word).toNat % 16 := by
  decide

/-- Words with RSVD ≠ 0 at its least value, and the ends of the reserved OPs. -/
theorem wit_IllegalWordsCommitTheirError :
    (0x00000010 : Word).toNat / 16 ≠ 0 ∧ (0 : Word).toNat / 16 = 0 ∧ (0 : Word).toNat % 16 = 0 ∧
    (6 : Word).toNat / 16 = 0 ∧ 6 ≤ (6 : Word).toNat % 16 := by decide

theorem wit_DecodeAndEncodeAgree : Instr.search.wf = true := by decide

/-- The first and last entry of every window, and a word offset that has a location. -/
theorem wit_AddressMapRoundTrip :
    cfg.wf = true ∧ (∀ l ∈ [Loc.capNw, .elapsed, .pairPt 0, .pairCt 1, .matchKey 1023, .matchMap 31, .textIn 3, .textOut 3],
      l.present cfg = true) ∧ 0x8000C % 4 = 0 ∧ locate cfg 0x8000C = some (.textOut 3) := by
  decide +kernel

theorem wit_BusErrorsChangeNothing :
    idle.cfg.wf = true ∧ (2 : Nat) ≠ 4 ∧ 0x100019 % 4 ≠ 0 ∧
    ∀ l : Loc, l.present idle.cfg = true → 0x80010 + 0x100000 ≠ idle.cfg.base + l.offset := by
  refine ⟨by decide, by decide, by decide, fun l hl => ?_⟩
  have hb : idle.cfg = cfg := rfl
  cases l <;> simp [hb, cfg, Loc.present, Loc.offset, pairPtOff, pairCtOff, matchKeyOff, matchMapOff, textInOff,
    textOutOff] at * <;> omega

theorem wit_ReadsHaveNoSideEffects :
    idle.cfg.wf = true ∧ (Loc.textOut 3).present idle.cfg = true ∧ idle.status.busy = false ∧
    encoding.cfg.wf = true ∧ (Loc.textOut 3).present encoding.cfg = true ∧ encoding.status.busy = true ∧
    isOutput (.textOut 3) = true ∧ isOutput (.textIn 3) = false := by decide

theorem wit_ReadOnlyWritesAreIgnored :
    idle.cfg.wf = true ∧ (Loc.matchKey 1023).present idle.cfg = true ∧ readOnly (.matchKey 1023) :=
  ⟨by decide, by decide, trivial⟩

theorem wit_OperandWritesReadBack :
    idle.cfg.wf = true ∧ (Loc.textIn 3).present idle.cfg = true ∧ operandLoc (.textIn 3) ∧ idle.rst = false ∧
    idle.status.busy = false := ⟨by decide, by decide, trivial, rfl, by decide⟩

theorem wit_BusyWritesAreDropped :
    encoding.cfg.wf = true ∧ encoding.rst = false ∧ encoding.status.busy = true ∧ (Loc.pairCt 1).present encoding.cfg = true ∧
    operandLoc (.pairCt 1) ∧ (3 : Word).getLsbD 1 = true ∧ (1 : Word).getLsbD 1 = false ∧
    (HostStmt.wr (.named .din) 0xFF ≠ .rst true ∧ ∃ t, hostStmt encoding (.wr (.named .din) 0xFF) = .next t) :=
  ⟨by decide, rfl, by decide, by decide, trivial, by decide, by decide, by decide, _, rfl⟩

theorem wit_StatusWriteClearsItsFlags :
    encoding.cfg.wf = true ∧ encoding.rst = false ∧ Inv encoding ∧ encoding.status.busy = true :=
  ⟨by decide, rfl, inv_encoding, by decide⟩

theorem wit_MatchViewsListTheSetInOrder :
    0 < matchCount (addKey 0 1023) ∧ matchCount (addKey 0 1023) ≤ 1 := by decide +kernel

theorem wit_AcceptanceStartsTheCommand :
    idle.cfg.wf = true ∧ idle.rst = false ∧ idle.status.busy = false ∧ encoding.cfg.wf = true ∧ encoding.rst = false ∧
    encoding.status.busy = true := by decide

theorem wit_StepRunsTheAcceptedCommand :
    decode 1 = .cmd .encBlock ∧ encoding.phase = .exec ∧ encoding.op = decode 1 ∧ chosenAgent encoding = some .seq ∧
    decodeTableWord 32 5 = some .search := ⟨by decide, rfl, rfl, rfl, by decide⟩

theorem wit_EveryCommandAnswersANextState : Instr.decText ≠ .search := by decide

/-- `s` with other values wherever a text command reads nothing, and wherever SEARCH reads nothing. -/
def otherThanText (s : State) : State := poke { s with din := 1, pairCount := 2, workersReq := 7 } (pairPtOff 0) 3
def otherThanSearch (s : State) : State := poke { s with key := 1, din := 2, textLen := 1 } (textInOff 0) 3

theorem otherThanSearch_progress (s : State) : sameProgress s (otherThanSearch s) := ⟨rfl, rfl, rfl⟩

theorem wit_CommandsReadOnlyTheirOperands :
    (Instr.decBlock = .encBlock ∨ Instr.decBlock = .decBlock) ∧
    (∃ s' u', sameTextInputs idle (otherThanText idle) ∧ exec .encText idle = .next s' ∧
      exec .encText (otherThanText idle) = .next u' ∧ s'.status.errCode = .none) ∧
    (∃ s' u', sameSearchInputs searching (otherThanSearch searching) ∧
      sameProgress searching (otherThanSearch searching) ∧ exec .search searching = .next s' ∧
      exec .search (otherThanSearch searching) = .next u') ∧
    (∃ s' u', sameSearchInputs launched (otherThanSearch launched) ∧
      sameProgress launched (otherThanSearch launched) ∧ workerMove 0 launched = some s' ∧
      workerMove 0 (otherThanSearch launched) = some u') ∧
    ∃ s' u', sameSearchInputs joinable (otherThanSearch joinable) ∧ sameProgress joinable (otherThanSearch joinable) ∧
      joinable.phase = .searchRun ∧ (otherThanSearch joinable).phase = .searchRun ∧
      seqMove joinable = some (.next s') ∧ seqMove (otherThanSearch joinable) = some (.next u') := by
  refine ⟨by decide, ⟨_, _, ⟨rfl, rfl, rfl, by decide +kernel⟩, exec_next _ _, exec_next _ _, by decide +kernel⟩,
    ⟨_, _, ⟨rfl, rfl, rfl, by decide +kernel⟩, otherThanSearch_progress _, exec_next _ _, exec_next _ _⟩,
    ⟨_, _, ⟨rfl, rfl, rfl, by decide +kernel⟩, otherThanSearch_progress _, rfl, rfl⟩,
    _, _, ⟨rfl, rfl, rfl, by decide +kernel⟩, otherThanSearch_progress _, rfl, rfl,
      seqMove_joinable, seqMove_join rfl (by decide)⟩

/-- Each clause of the block commands at the ends of DIN's and KEY's ranges. -/
theorem wit_EncBlockEncryptsOrRejects :
    256 ≤ (0x100 : Word).toNat ∧ (0xFF : Word).toNat < 256 ∧ 1024 ≤ (0x400 : Word).toNat ∧ (0x3FF : Word).toNat < 1024 := by
  decide

theorem wit_DecBlockDecryptsOrRejects :
    256 ≤ (0xFFFFFFFF : Word).toNat ∧ (0 : Word).toNat < 256 ∧ 1024 ≤ (0xFFFFFFFF : Word).toNat ∧
    (0 : Word).toNat < 1024 := by decide

theorem wit_BlockCommandsDependOnDinAndKeyOnly :
    (∃ s' t', idle.din = launched.din ∧ idle.key = launched.key ∧ exec .encBlock idle = .next s' ∧
      exec .encBlock launched = .next t') ∧ (next (exec .encBlock idle)).status.errCode = .none :=
  ⟨⟨_, _, rfl, rfl, exec_next _ _, exec_next _ _⟩, by decide +kernel⟩

/-- TEXT_LEN just past TEXT_DEPTH; the last unit of a full text bad; KEY just out of range; all in range; no text. -/
theorem wit_EncTextEncryptsOrRejects :
    (let s := { idle with textLen := 5 }
     s.cfg.textDepth < s.textLen.toNat) ∧
    (let s := poke { idle with textLen := 4 } (textInOff 3) 0x100
     s.textLen.toNat ≤ s.cfg.textDepth ∧ 3 < s.textLen.toNat ∧ 256 ≤ (textIn s 3).toNat ∧ ∀ j < 3, (textIn s j).toNat < 256) ∧
    (let s := { idle with textLen := 4, key := 0x400 }
     s.textLen.toNat ≤ s.cfg.textDepth ∧ (∀ i < s.textLen.toNat, (textIn s i).toNat < 256) ∧ 1024 ≤ s.key.toNat) ∧
    (let s := { idle with textLen := 4, key := 0x3FF }
     s.textLen.toNat ≤ s.cfg.textDepth ∧ (∀ i < s.textLen.toNat, (textIn s i).toNat < 256) ∧ s.key.toNat < 1024) ∧
    (let s := { idle with textLen := 0 }
     s.textLen.toNat ≤ s.cfg.textDepth ∧ (∀ i < s.textLen.toNat, (textIn s i).toNat < 256) ∧ s.key.toNat < 1024 ∧
       s.textLen = 0) := by decide +kernel

theorem wit_DecTextDecryptsOrRejects :
    (let s := { idle with textLen := 0xFFFFFFFF }
     s.cfg.textDepth < s.textLen.toNat) ∧
    (let s := poke idle (textInOff 0) 0x80000000
     s.textLen.toNat ≤ s.cfg.textDepth ∧ 0 < s.textLen.toNat ∧ 256 ≤ (textIn s 0).toNat ∧ ∀ j < 0, (textIn s j).toNat < 256) ∧
    (let s := { idle with key := 0xFFFFFFFF }
     s.textLen.toNat ≤ s.cfg.textDepth ∧ (∀ i < s.textLen.toNat, (textIn s i).toNat < 256) ∧ 1024 ≤ s.key.toNat) ∧
    (idle.textLen.toNat ≤ idle.cfg.textDepth ∧ (∀ i < idle.textLen.toNat, (textIn idle i).toNat < 256) ∧
      idle.key.toNat < 1024) := by decide +kernel

/-- `idle` with the ciphertext of its text copied to TEXT_IN. -/
def copied : State := poke (poke (poke idle (textInOff 0) 0xE4) (textInOff 1) 0x83) (textInOff 2) 0xAD

theorem wit_TextRoundTrip :
    textError idle = none ∧ exec .encText idle = .next (next (exec .encText idle)) ∧ copied.cfg = idle.cfg ∧
    copied.key = idle.key ∧ copied.textLen = idle.textLen ∧
    (∀ i < idle.textLen.toNat, textIn copied i = (textOut (next (exec .encText idle)) i).setWidth 32) ∧
    ∃ v, exec .decText copied = .next v :=
  ⟨by decide +kernel, exec_next _ _, rfl, rfl, rfl, by decide +kernel, _, exec_next _ _⟩

theorem wit_TextIsBlockByBlock : textError idle = none ∧ 2 < idle.textLen.toNat ∧
    (∃ t, exec .encText idle = .next t) ∧ ∃ t, exec .decText idle = .next t :=
  ⟨by decide +kernel, by decide, ⟨_, exec_next _ _⟩, _, exec_next _ _⟩

theorem wit_CommandFrame : idle.cfg.wf = true ∧ (Loc.textIn 3).present idle.cfg = true ∧ operandLoc (.textIn 3) ∧
    ∀ i, ∃ t, exec i idle = .next t :=
  ⟨by decide, by decide, trivial, fun i => ⟨_, exec_next i _⟩⟩

/-- No pair; one pair too many; the last pair of a full memory bad in its plaintext, and in its ciphertext. -/
theorem wit_SearchRejectsBadPairs :
    ({ idle with pairCount := 0 } : State).pairCount = 0 ∧
    (let s := { idle with pairCount := 3 }
     s.pairCount ≠ 0 ∧ s.cfg.pairDepth < s.pairCount.toNat) ∧
    (let s := poke { idle with pairCount := 2 } (pairPtOff 1) 0x100
     s.pairCount ≠ 0 ∧ s.pairCount.toNat ≤ s.cfg.pairDepth ∧ 1 < s.pairCount.toNat ∧
       (∀ j < 1, (pairPt s j).toNat < 256 ∧ (pairCt s j).toNat < 256) ∧ 256 ≤ (pairPt s 1).toNat) ∧
    (let s := poke { idle with pairCount := 2 } (pairCtOff 1) 0x100
     s.pairCount ≠ 0 ∧ s.pairCount.toNat ≤ s.cfg.pairDepth ∧ 1 < s.pairCount.toNat ∧
       (∀ j < 1, (pairPt s j).toNat < 256 ∧ (pairCt s j).toNat < 256) ∧ (pairPt s 1).toNat < 256 ∧
       256 ≤ (pairCt s 1).toNat) := by decide +kernel

theorem wit_SearchLaunchesItsWorkers :
    let s := { searching with pairCount := 2 }
    s.pairCount ≠ 0 ∧ s.pairCount.toNat ≤ s.cfg.pairDepth ∧
      (∀ i < s.pairCount.toNat, (pairPt s i).toNat < 256 ∧ (pairCt s i).toNat < 256) ∧ s.workers[0]? = some w0 := by
  decide +kernel

/-- Ranges that are full, short and empty, of 100 workers (95_test_vectors.md section 2.6). -/
theorem wit_PartitionCoversTheKeySpaceOnce : 1 ≤ 1024 ∧ 1023 < 1024 ∧ rangeLo 100 93 < rangeHi 100 93 ∧
    rangeLo 100 0 < rangeHi 100 0 ∧ rangeHi 100 0 < 1024 := by decide

/-- The launched SEARCH with its worker in another condition. -/
def withWorker (x : Worker) : State := { launched with workers := [x] }

theorem wit_WorkerStepsTestEndAndMerge :
    (let x : Worker := { phase := .run, lo := 0, hi := 1024, k := 1023, lbuf := 0 }
     (withWorker x).workers[0]? = some x ∧ x.phase = .run ∧ x.k < x.hi) ∧
    (let x : Worker := { phase := .run, lo := 0, hi := 1024, k := 1024, lbuf := 0 }
     (withWorker x).workers[0]? = some x ∧ x.phase = .run ∧ x.k = x.hi) ∧
    (let x : Worker := { phase := .run, lo := 0, hi := 512, k := 513, lbuf := 0 }
     (withWorker x).workers[0]? = some x ∧ x.phase = .run ∧ x.hi < x.k) ∧
    (let x : Worker := { phase := .mergePending, lo := 0, hi := 1024, k := 1024, lbuf := 0 }
     (withWorker x).workers[0]? = some x ∧ x.phase = .mergePending ∧ (withWorker x).lock = .free ∧
       ({ withWorker x with lock := .held 0 } : State).workers[0]? = some x ∧
       ({ withWorker x with lock := .held 0 } : State).lock ≠ .free) ∧
    ((withWorker w0).workers[0]? = some w0 ∧ w0.phase = .idle) := by decide +kernel

theorem wit_MatchesTestsEveryPair : matchesKey idle 0x282 = true := by decide +kernel

theorem wit_JoinCommitsTheSearch :
    joinable.phase = .searchRun ∧ (∀ w < effWorkers joinable, ∃ x, joinable.workers[w]? = some x ∧ x.phase = .merged) ∧
    launched.phase = .searchRun ∧ 0 < effWorkers launched ∧ ∀ x, launched.workers[0]? = some x → x.phase ≠ .merged := by
  refine ⟨rfl, allMerged_iff.1 joinable_merged, rfl, by decide, fun x hx => ?_⟩
  rw [launched_workers] at hx
  obtain rfl : _ = x := by simpa using hx
  decide

/-- Two workers that both wait for their merge. -/
def twoPending : State :=
  { launched with
    workers := [{ phase := .mergePending, lo := 0, hi := 512, k := 512, lbuf := 1 },
      { phase := .mergePending, lo := 512, hi := 1024, k := 1024, lbuf := 2 }] }

theorem wit_WorkerMovesCommute :
    (0 : Nat) ≠ 1 ∧ (∃ t, workerMove 0 twoPending = some t) ∧ ∃ u, workerMove 1 twoPending = some u :=
  ⟨by decide, ⟨_, rfl⟩, _, rfl⟩

theorem wit_JoinYieldsTheCandidateSet :
    Inv joinable ∧ joinable.phase = .searchRun ∧ seqMove joinable = some (.next (join joinable)) :=
  ⟨inv_joinable, rfl, seqMove_joinable⟩

theorem wit_CandidateSetsAreClosedAndEven :
    (0x282 : Nat) < 1024 ∧ Inv joinable ∧ joinable.phase = .searchRun ∧
    seqMove joinable = some (.next (join joinable)) := ⟨by decide, inv_joinable, rfl, seqMove_joinable⟩

theorem wit_SearchFindsTheTrueKey :
    Inv joinable ∧ joinable.phase = .searchRun ∧ seqMove joinable = some (.next (join joinable)) ∧ 0x282 < 1024 ∧
    ∀ p < joinable.pairCount.toNat,
      (pairCt joinable p).setWidth 8 = encrypt8 ((pairPt joinable p).setWidth 8) (BitVec.ofNat 10 0x282) :=
  ⟨inv_joinable, rfl, seqMove_joinable, by decide, by decide +kernel⟩

theorem runAgents_append (as bs : List Agent) (s : State) :
    runAgents (as ++ bs) s = (runAgents as s).bind (runAgents bs) := by
  induction as generalizing s with
  | nil => rfl
  | cons a as ih =>
    rw [List.cons_append, runAgents, runAgents]
    split
    · exact ih _
    · rfl

/-- A lone worker's n test steps. -/
theorem runAgents_tests (n : Nat) (s : State) (x : Worker) (hs : s.workers = [x]) (hp : x.phase = .run)
    (hk : x.k + n ≤ x.hi) : ∃ y, y.phase = .run ∧ y.k = x.k + n ∧ y.hi = x.hi ∧
      runAgents (List.replicate n (.worker 0)) s = some { s with workers := [y] } := by
  induction n generalizing s x with
  | zero => exact ⟨x, hp, rfl, rfl, by rw [← hs]; rfl⟩
  | succ n ih =>
    have hm : agentMove (.worker 0) s = some (.next { s with workers := [testStep s x] }) := by
      have h0 : s.workers[0]? = some x := by rw [hs]; rfl
      simp only [agentMove, workerMove, h0, hp]
      rw [if_pos (by omega), hs]
      rfl
    obtain ⟨y, h1, h2, h3, h4⟩ := ih { s with workers := [testStep s x] } (testStep s x) rfl hp
      (show x.k + 1 + n ≤ x.hi by omega)
    refine ⟨y, h1, by rw [h2]; show x.k + 1 + n = _; omega, h3, ?_⟩
    rw [List.replicate_succ, runAgents, hm]
    exact h4

theorem wit_SearchCommitsTheCandidateSet :
    Inv searching ∧ searching.phase = .exec ∧ searching.op = .cmd .search ∧ searchError searching = none ∧
    ∃ t as, (∀ a ∈ as, Agent.isCore a = true) ∧ runAgents as searching = some t ∧ t.phase = .idle := by
  refine ⟨inv_searching, rfl, rfl, by decide, ?_⟩
  obtain ⟨y, h1, h2, h3, h4⟩ := runAgents_tests 1024 launched _ launched_workers rfl (by decide)
  refine ⟨?t, .seq :: (List.replicate 1024 (.worker 0) ++ [.worker 0, .worker 0, .seq]), ?_, ?run, ?_⟩
  case run =>
    have hl : agentMove .seq searching = some (.next launched) := by
      have he : searchError searching = none := by decide
      show some (exec .search searching) = _
      simp only [exec, execSearch, checked, he]
      rfl
    rw [runAgents, hl]
    show runAgents _ launched = _
    rw [runAgents_append, h4, Option.bind_some, runAgents]
    have hm : agentMove (.worker 0) { launched with workers := [y] } =
        some (.next { launched with workers := [{ y with phase := .mergePending }] }) := by
      simp only [agentMove, workerMove, List.getElem?_cons_zero, h1]
      rw [if_neg (by rw [h2, h3]; decide), if_pos (by rw [h2, h3])]
      rfl
    rw [hm]
    exact rfl
  · intro a ha
    simp only [List.mem_cons, List.mem_append, List.mem_replicate, List.not_mem_nil, or_false] at ha
    obtain rfl | ⟨_, rfl⟩ | rfl | rfl | rfl := ha <;> rfl
  · rfl

/-- A block command that is rejected, and an illegal word. -/
theorem wit_ErrorsAreNeverPartial :
    (∃ t, seqMove { encoding with key := 0x400 } = some (.next t) ∧ t.phase = .idle ∧ t.status.errCode ≠ .none) ∧
    (∃ t, seqMove (accept 0 idle) = some (.next t) ∧ t.phase = .idle ∧ t.status.errCode ≠ .none) ∧
    isOutput (.textOut 3) = true ∧ Loc.textOut 3 ≠ .errInfo :=
  ⟨⟨_, rfl, by decide, by decide⟩, ⟨_, rfl, by decide, by decide⟩, rfl, by decide⟩

theorem wit_InterruptFollowsDone : (2 : Word).getLsbD 1 = true := by decide

theorem wit_SoftResetState : idle.cfg.wf = true ∧ idle.rst = false ∧ idle.status.busy = false ∧
    encoding.cfg.wf = true ∧ encoding.rst = false ∧ encoding.status.busy = true ∧ (2 : Word).getLsbD 1 = true := by decide

theorem wit_CtrlWordAndWrites : idle.cfg.wf = true ∧ idle.rst = false ∧ idle.status.busy = false ∧
    encoding.rst = false ∧ encoding.status.busy = true ∧ (1 : Word).getLsbD 1 = false ∧ (2 : Word).getLsbD 1 = true := by
  decide

/-- A core held in reset in the middle of a command, its host at a write to CMD. -/
def held : State := driven (driveRst encoding true) (.wr (.named .cmd) 1)

theorem inv_held : Inv held where
  cfgWf := by decide
  ramWf := by decide
  ramMapped := fun x hx => nomatch hx
  busyIff := by decide
  busyClear := by decide
  errInfoKind := by decide
  noProgrammingError := by decide
  workerCount := by decide
  lockFree := rfl
  workersIdle := by decide
  searching := fun h => absurd h (by decide)
  held := fun _ => ⟨rfl, rfl, rfl, rfl, rfl, rfl, rfl, rfl, rfl, rfl, rfl, rfl, rfl, rfl, by decide, rfl⟩

theorem wit_HardwareResetState :
    (false = true ∨ held.rst = true) ∧ encoding.rst = false ∧ Inv held ∧ held.rst = true ∧
    ∃ t, agentMove .host held = some (.next t) :=
  ⟨.inr (by decide), by decide, inv_held, by decide, next (hostStmt held (.wr (.named .cmd) 1)), rfl⟩

/-- A CMD write to a core held in reset starts nothing; once `rst` is released the core accepts it. -/
theorem test_held_reset : (memWrite held 4 0x100014 1).2.status.busy = false ∧
    (memWrite (driveRst held false) 4 0x100014 1).2.status.busy = true ∧ (driveRst encoding true).status.word = 0 := by
  decide +kernel

/-- PAIR_PT[600] is past the pair memory: a bus error (20_memory.md R74), not MATCH_KEY[176], which stands at its offset. -/
theorem test_named_past_window : (Loc.pairPt 600).offset = (Loc.matchKey 176).offset ∧
    (hostAccess idle (HostLoc.address cfg (.named (.pairPt 600))) fun a => hostWrite idle 4 a 0).host.resp = .busError := by
  decide +kernel

theorem wit_BusErrorsChangeNothing_named : (Loc.pairPt 2).present idle.cfg = false := by decide

theorem wit_CleanEntryStates : Inv idle ∧ idle.phase = .idle := ⟨inv_idle, rfl⟩

theorem wit_InvariantHoldsAtReset : cfg.wf = true := by decide

theorem wit_EveryMoveKeepsTheInvariant :
    Inv launched ∧ (∃ t, agentMove (.worker 0) launched = some (.next t)) ∧ Inv searching ∧
    ∃ t, step searching = .next t :=
  ⟨inv_launched, ⟨_, rfl⟩, inv_searching, _, rfl⟩

theorem wit_EveryEnabledMoveCanBeNext : ∃ t, agentMove (.worker 0) launched = some (.next t) := ⟨_, rfl⟩

/-- A branch on a name that nothing has bound. -/
theorem wit_StepsStopOnlyAtHostBranches :
    step (driven idle (.bne 7 0 0 0)) = .fault (.hostNameUnbound 7) := rfl

theorem wit_CoreWorkIsBounded :
    Inv searching ∧ (∀ a ∈ [Agent.seq, .worker 0], a.isCore = true) ∧
    ∃ t, runAgents [.seq, .worker 0] searching = some t := ⟨inv_searching, by decide, _, rfl⟩

theorem wit_BusyCoreIsNeverStuck : Inv launched ∧ launched.status.busy = true := ⟨inv_launched, rfl⟩

theorem wit_StepsReachTheCommit :
    Inv launched ∧ launched.status.busy = true ∧ launched.host.prog.length ≤ launched.host.pc :=
  ⟨inv_launched, rfl, by decide⟩

theorem wit_WaitEndsAtDone :
    let h : HostAgent := { prog := (Pseudo.wait).expand 3 7, pc := 2, names := [(7, Status.reset.word)], resp := .none }
    cellGet ({ idle with host := h } : State).host.names 7 = some Status.reset.word ∧
      labelIndex ({ idle with host := h } : State).host.prog 3 = some 0 := ⟨rfl, rfl⟩

end Sys2Proof.Tests
end

section
/-! SUPPORT. A location is found at its own offset (20_memory.md R71), so a legal access at `BASE + offset` reaches it. -/

namespace Sys2Proof.Machine

theorem wf_bounds {c : Config} (hc : c.wf = true) : c.pairDepth ≤ 512 ∧ c.textDepth ≤ 65536 ∧ c.base % 2 ^ 20 = 0 := by
  simp only [Config.wf, Bool.and_eq_true, decide_eq_true_eq] at hc
  obtain ⟨⟨⟨⟨_, hpair⟩, _⟩, htext⟩, hbase⟩ := hc
  exact ⟨hpair, htext, hbase⟩

theorem cellGet_none_of_ne {α : Type} {m : List (Nat × α)} {a : Nat} (h : ∀ y ∈ m, y.1 ≠ a) : cellGet m a = none := by
  induction m with
  | nil => rfl
  | cons x r ih =>
    obtain ⟨hx, hr⟩ := List.forall_mem_cons.mp h
    rw [cellGet, if_neg hx, ih hr]

/-- No register stands past R71's last one, ELAPSED. -/
theorem cellGet_registerMap_none {off : Nat} (h : 0x040 < off) : cellGet registerMap off = none := by
  have hle : ∀ y ∈ registerMap, y.1 ≤ 0x040 := by decide
  exact cellGet_none_of_ne fun y hy => ((hle y hy).trans_lt h).ne

theorem windowIndex_outside {start size depth off : Nat} (h : off < start ∨ start + size * depth ≤ off) :
    windowIndex start size depth off = none :=
  if_neg (by omega)

theorem windowIndex_entry {start size depth i : Nat} (hs : 0 < size) (hi : i < depth) :
    windowIndex start size depth (start + size * i) = some i :=
  (windowIndex_eq_some hs).2 ⟨hi, le_rfl, by omega⟩

theorem pairLoc_outside {c : Config} {off : Nat} (hc : c.wf = true) (h : 0x02000 ≤ off) : pairLoc c off = none := by
  have := wf_bounds hc
  rw [pairLoc, windowIndex_outside (by omega), Option.map_none]

/-- Past the registers and the pair window, an offset is looked up in the four windows of single words. -/
theorem locate_past_pairs {c : Config} {off : Nat} (hc : c.wf = true) (h : 0x02000 ≤ off) :
    locate c off = (((windowIndex 0x02000 4 1024 off).map Loc.matchKey).or <|
      ((windowIndex 0x03000 4 32 off).map Loc.matchMap).or <|
      ((windowIndex 0x40000 4 c.textDepth off).map Loc.textIn).or <|
      (windowIndex 0x80000 4 c.textDepth off).map Loc.textOut) := by
  rw [locate, cellGet_registerMap_none (by omega), pairLoc_outside hc h, Option.none_or, Option.none_or]

/-- The windows do not overlap, and no register stands in one (R71). -/
theorem locate_offset {c : Config} {l : Loc} (hc : c.wf = true) (hl : l.present c = true) :
    locate c l.offset = some l := by
  obtain ⟨_, htext, _⟩ := wf_bounds hc
  have locate_pair {off : Nat} (h : 0x01000 ≤ off) (hp : pairLoc c off = some l) : locate c off = some l := by
    rw [locate, cellGet_registerMap_none (by omega), hp, Option.none_or, Option.some_or]
  cases l with
  | pairPt i =>
    have hi : i < c.pairDepth := of_decide_eq_true hl
    exact locate_pair (Nat.le_add_right _ _)
      (pairLoc_eq_some.2 ⟨i, hi, .inl ⟨rfl, le_rfl, Nat.lt_add_of_pos_right (by decide)⟩⟩)
  | pairCt i =>
    have hi : i < c.pairDepth := of_decide_eq_true hl
    exact locate_pair (Nat.le_add_right_of_le (by decide))
      (pairLoc_eq_some.2 ⟨i, hi, .inr ⟨rfl, le_rfl, Nat.lt_add_of_pos_right (by decide)⟩⟩)
  | matchKey j =>
    have hj : j < 1024 := of_decide_eq_true hl
    rw [Loc.offset, matchKeyOff, locate_past_pairs hc (by omega), windowIndex_entry (by decide) hj]
    rfl
  | matchMap w =>
    have hw : w < 32 := of_decide_eq_true hl
    rw [Loc.offset, matchMapOff, locate_past_pairs hc (by omega), windowIndex_outside (start := 0x02000) (by omega),
      windowIndex_entry (by decide) hw]
    rfl
  | textIn i =>
    have hi : i < c.textDepth := of_decide_eq_true hl
    rw [Loc.offset, textInOff, locate_past_pairs hc (by omega), windowIndex_outside (start := 0x02000) (by omega),
      windowIndex_outside (start := 0x03000) (by omega), windowIndex_entry (by decide) hi]
    rfl
  | textOut i =>
    have hi : i < c.textDepth := of_decide_eq_true hl
    rw [Loc.offset, textOutOff, locate_past_pairs hc (by omega), windowIndex_outside (start := 0x02000) (by omega),
      windowIndex_outside (start := 0x03000) (by omega), windowIndex_outside (start := 0x40000) (by omega),
      windowIndex_entry (by decide) hi]
    rfl
  | _ => rfl

/-- Every location is word aligned and inside the core's 2^20 bytes. -/
theorem offset_aligned_lt {c : Config} {l : Loc} (hc : c.wf = true) (hl : l.present c = true) :
    l.offset % 4 = 0 ∧ l.offset < 2 ^ 20 := by
  obtain ⟨hpair, htext, _⟩ := wf_bounds hc
  cases l with
  | pairPt i | pairCt i | matchKey i | matchMap i | textIn i | textOut i =>
    have hi := of_decide_eq_true hl
    simp only [Loc.offset, pairPtOff, pairCtOff, matchKeyOff, matchMapOff, textInOff, textOutOff]
    omega
  | _ => exact ⟨rfl, by decide⟩

theorem target_offset {c : Config} {l : Loc} (hc : c.wf = true) (hl : l.present c = true) :
    target c 4 (c.base + l.offset) = some l := by
  obtain ⟨_, _, hbase⟩ := wf_bounds hc
  obtain ⟨halign, hlt⟩ := offset_aligned_lt hc hl
  rw [target, if_pos (by omega), Nat.add_sub_cancel_left, locate_offset hc hl]

/-- A word write at a location's own address is the legal write to that location (R72). -/
theorem memWrite_offset {s : State} {l : Loc} (hc : s.cfg.wf = true) (hl : l.present s.cfg = true) (v : Word) :
    memWrite s 4 (s.cfg.base + l.offset) v = (.written, writeAccess s l v) := by
  rw [memWrite, target_offset hc hl]

/-- A location outside R78's list takes its write at any time outside a hardware reset, BUSY or not. -/
theorem memWrite_of_not_dropped {s : State} {l : Loc} (hc : s.cfg.wf = true) (hl : l.present s.cfg = true)
    (hr : s.rst = false) (hd : droppedWhileBusy l = false) (v : Word) :
    memWrite s 4 (s.cfg.base + l.offset) v = (.written, writeLoc s v l) := by
  rw [memWrite_offset hc hl]
  simp [writeAccess, hr, hd]

end Sys2Proof.Machine
end

section
/-! PROOFS. Writes to STATUS and CTRL (10_state.md R24, R27). -/

namespace Sys2Proof.Machine

/-- R27's two conditional assignments. -/
theorem clear_eq_ite (st : Status) (v : Word) :
    st.clear v = { st with
      done := if v.getLsbD 1 then false else st.done
      dropped := if v.getLsbD 3 then false else st.dropped } := by
  have and_not (d b : Bool) : (d && !b) = if b then false else d := by cases b <;> simp
  rw [Status.clear, and_not, and_not]

theorem clear_done_of_not_done {st : Status} (h : st.done = false) (v : Word) : (st.clear v).done = st.done := by
  simp [Status.clear, h]

theorem memWrite_status {s : State} (hc : s.cfg.wf = true) (hr : s.rst = false) (v : Word) :
    memWrite s 4 (s.cfg.base + 0x018) v = (.written, { s with status := s.status.clear v }) :=
  memWrite_of_not_dropped (l := .status) hc rfl hr rfl v

theorem memWrite_ctrl {s : State} (hc : s.cfg.wf = true) (hr : s.rst = false) (v : Word) :
    memWrite s 4 (s.cfg.base + 0x010) v = (.written, writeCtrl s v) :=
  memWrite_of_not_dropped (l := .ctrl) hc rfl hr rfl v

theorem writeCtrl_of_no_reset {s : State} {v : Word} (h : v.getLsbD 1 = false) :
    writeCtrl s v = { s with ctrl := { irqEn := v.getLsbD 0 } } := by
  rw [writeCtrl, if_neg (Bool.eq_false_iff.mp h)]

theorem writeCtrl_reset_of_idle {s : State} {v : Word} (h : v.getLsbD 1 = true) (hb : s.status.busy = false) :
    writeCtrl s v = softReset s := by
  rw [writeCtrl, if_pos h, if_neg (Bool.eq_false_iff.mp hb)]

theorem writeCtrl_reset_of_busy {s : State} {v : Word} (h : v.getLsbD 1 = true) (hb : s.status.busy = true) :
    writeCtrl s v = { s with ctrl := { irqEn := v.getLsbD 0 }, status := { s.status with dropped := true } } := by
  rw [writeCtrl, if_pos h, if_pos hb, Status.markDropped]

theorem ctrlWord_fields (c : Ctrl) : c.word.getLsbD 0 = c.irqEn ∧ c.word.extractLsb' 1 31 = 0 := by
  obtain ⟨irqEn⟩ := c
  cases irqEn <;> decide

/-- Settles O17: STATUS is not in R78's list, and the invariant keeps DONE = 0 while BUSY = 1. -/
theorem statusWriteClearsItsFlags : Obligations.StatusWriteClearsItsFlags := by
  intro s v hc hr
  refine ⟨?_, fun hinv hbusy => ?_⟩
  · rw [memWrite_status hc hr, clear_eq_ite]
  · obtain ⟨hdone, _⟩ := hinv.busyClear hbusy
    exact clear_done_of_not_done hdone v

/-- Settles O60: CTRL is not in R78's list, so each form of the write is a branch of `writeCtrl`. -/
theorem ctrlWordAndWrites : Obligations.CtrlWordAndWrites := by
  refine ⟨ctrlWord_fields, fun s v hc hr => ?_⟩
  rw [memWrite_ctrl hc hr]
  refine ⟨fun h => ?_, fun h hb => ?_, fun h hb => ?_⟩
  · rw [writeCtrl_of_no_reset h]
  · rw [writeCtrl_reset_of_idle h hb]
  · rw [writeCtrl_reset_of_busy h hb]

end Sys2Proof.Machine
end

section
/-! PROOFS. Writes that are ignored (20_memory.md R75) and writes that are dropped while BUSY = 1 (R78). -/

namespace Sys2Proof.Machine

/-! ### Read-only locations -/

theorem droppedWhileBusy_of_readOnly {l : Loc} (h : readOnly l) : droppedWhileBusy l = false := by
  cases l with
  | ctrl | cmd | status | key | din | textLen | pairCount | workers | pairPt _ | pairCt _ | textIn _ => exact h.elim
  | _ => rfl

theorem writeLoc_of_readOnly {l : Loc} (h : readOnly l) (s : State) (v : Word) : writeLoc s v l = s := by
  cases l with
  | ctrl | cmd | status | key | din | textLen | pairCount | workers | pairPt _ | pairCt _ | textIn _ => exact h.elim
  | _ => rfl

/-- Settles O13: a read-only location is not in R78's list and its write stores nothing; while `rst` is asserted no write
does. -/
theorem readOnlyWritesAreIgnored : Obligations.ReadOnlyWritesAreIgnored := by
  intro s l v hc hl hro
  cases hr : s.rst with
  | true => rw [memWrite_offset hc hl, writeAccess, if_pos hr]
  | false => rw [memWrite_of_not_dropped hc hl hr (droppedWhileBusy_of_readOnly hro), writeLoc_of_readOnly hro]

/-! ### Dropped writes -/

/-- The model's list of dropped writes is R78's: CMD and the operand locations. -/
theorem droppedWhileBusy_iff {l : Loc} : droppedWhileBusy l = true ↔ l = .cmd ∨ operandLoc l := by
  cases l <;> simp [droppedWhileBusy, operandLoc]

theorem memWrite_of_dropped {s : State} {l : Loc} (hc : s.cfg.wf = true) (hl : l.present s.cfg = true)
    (hr : s.rst = false) (hb : s.status.busy = true) (hd : droppedWhileBusy l = true) (v : Word) :
    memWrite s 4 (s.cfg.base + l.offset) v = (.written, { s with status := { s.status with dropped := true } }) := by
  rw [memWrite_offset hc hl]
  simp [writeAccess, hr, hb, hd, Status.markDropped]

/-! ### The running command -/

/-- A command runs in `t` with the inputs it has in `s` and has got as far as in `s`. -/
def CommandUndisturbed (s t : State) : Prop :=
  sameInputs s t ∧ t.phase = s.phase ∧ t.op = s.op ∧ t.workers = s.workers ∧ t.aggMap = s.aggMap ∧ t.lock = s.lock ∧
  t.status.busy = true

theorem commandUndisturbed_refl {s : State} (hb : s.status.busy = true) : CommandUndisturbed s s :=
  ⟨sameInputs_refl s, rfl, rfl, rfl, rfl, rfl, hb⟩

/-- What would disturb the command (a soft reset, an acceptance, an operand or RAM write) happens while BUSY = 0 only. -/
theorem commandUndisturbed_of_writeEffect {s t : State} {v : Word} (hb : s.status.busy = true)
    (h : WriteEffect s v t) : CommandUndisturbed s t := by
  cases h with
  | ignored | dropped | ctrl | ctrlDropped | status => exact commandUndisturbed_refl hb
  | softReset hidle | accept hidle | operands _ _ _ _ _ hidle | ram _ hidle => simp [hb] at hidle

/-- No statement of the host but the assertion of `rst` disturbs the running command. -/
theorem commandUndisturbed_of_hostStmt {s t : State} {st : HostStmt} (hr : s.rst = false) (hb : s.status.busy = true)
    (hst : st ≠ .rst true) (h : hostStmt s st = .next t) : CommandUndisturbed s t := by
  obtain ⟨_, rfl⟩ | ⟨_, rfl⟩ | ⟨_, u, _, hw, _, rfl⟩ | ⟨_, _, rfl, rfl | hheld, _⟩ := hostStmt_cases h
  · exact commandUndisturbed_refl hb
  · exact commandUndisturbed_refl hb
  · have hu : CommandUndisturbed s u := commandUndisturbed_of_writeEffect hb hw
    exact hu
  · exact absurd rfl hst
  · simp [hr] at hheld

/-- Settles O15: R78's list, the two forms of a CTRL write, STATUS, and what a host statement leaves unchanged. -/
theorem busyWritesAreDropped : Obligations.BusyWritesAreDropped := by
  intro s hc hr hb
  refine ⟨fun l v hl hd => ?_, fun v h => ?_, fun v h => ?_, fun v => ?_, fun st t hst h => ?_⟩
  · exact memWrite_of_dropped hc hl hr hb (droppedWhileBusy_iff.2 hd) v
  · rw [memWrite_ctrl hc hr, writeCtrl_reset_of_busy h hb]
  · rw [memWrite_ctrl hc hr, writeCtrl_of_no_reset h]
  · exact memWrite_status hc hr v
  · exact commandUndisturbed_of_hostStmt hr hb hst h

end Sys2Proof.Machine
end

section
/-! PROOFS. Decode on every word, and the acceptance and the error commit of a command word (30_encoding.md R100 to R110). -/

namespace Sys2Proof.Machine

/-! ### Decode -/

theorem toNat_rsvdField (c : Word) : (rsvdField c).toNat = c.toNat / 16 := by
  have hlt : c.toNat / 16 < 2 ^ 28 := by omega
  rw [rsvdField, BitVec.extractLsb'_toNat, Nat.shiftRight_eq_div_pow, Nat.mod_eq_of_lt hlt]

theorem toNat_opField (c : Word) : (opField c).toNat = c.toNat % 16 := by
  rw [opField, BitVec.extractLsb'_toNat, Nat.shiftRight_zero]

theorem rsvdField_eq_zero_iff {c : Word} : rsvdField c = 0 ↔ c.toNat / 16 = 0 := by
  simp [← BitVec.toNat_inj, toNat_rsvdField]

theorem decode_encode : ∀ i : Instr, decode (encode i) = .cmd i
  | .encBlock => (Laws.EncodeDecode.encBlock rfl).2
  | .decBlock => (Laws.EncodeDecode.decBlock rfl).2
  | .encText => (Laws.EncodeDecode.encText rfl).2
  | .decText => (Laws.EncodeDecode.decText rfl).2
  | .search => (Laws.EncodeDecode.search rfl).2

/-- A word whose fields are those of a command's word is that word: RSVD and OP leave no bit out (R100). -/
theorem decode_of_fields {c : Word} {i : Instr} (hr : c.toNat / 16 = 0) (ho : c.toNat % 16 = (encode i).toNat) :
    decode c = .cmd i := by
  have hc : c = encode i := BitVec.eq_of_toNat_eq (by omega)
  rw [hc, decode_encode]

theorem decode_of_reservedBits {c : Word} (h : c.toNat / 16 ≠ 0) : decode c = .illegal .reservedBits :=
  if_pos (mt rsvdField_eq_zero_iff.1 h)

theorem decode_of_opReserved {c : Word} (hr : c.toNat / 16 = 0) (ho : c.toNat % 16 = 0 ∨ 6 ≤ c.toNat % 16) :
    decode c = .illegal .opReserved := by
  have hop : ∀ n : BitVec 4, 1 ≤ n.toNat ∧ n.toNat ≤ 5 → opField c ≠ n := by
    rintro n hn rfl
    rw [toNat_opField] at hn
    omega
  rw [decode, if_neg (not_not.2 (rsvdField_eq_zero_iff.2 hr))]
  iterate 5 rw [if_neg (hop _ (by decide))]

/-- Settles O8: the two illegal classes by their tests, and each command by its one word. -/
theorem decodeIsTheListedFunction : Obligations.DecodeIsTheListedFunction := fun _ =>
  ⟨decode_of_reservedBits, decode_of_fields (i := .encBlock), decode_of_fields (i := .decBlock),
    decode_of_fields (i := .encText), decode_of_fields (i := .decText), decode_of_fields (i := .search),
    decode_of_opReserved⟩

/-! ### Acceptance -/

/-- While BUSY = 0 no write is dropped. -/
theorem memWrite_of_idle {s : State} {l : Loc} (hc : s.cfg.wf = true) (hl : l.present s.cfg = true)
    (hr : s.rst = false) (hb : s.status.busy = false) (v : Word) :
    memWrite s 4 (s.cfg.base + l.offset) v = (.written, writeLoc s v l) := by
  rw [memWrite_offset hc hl]
  simp [writeAccess, hr, hb]

/-- Settles O19: CMD is in R78's list, so its write is an acceptance while BUSY = 0 and dropped while BUSY = 1. -/
theorem acceptanceStartsTheCommand : Obligations.AcceptanceStartsTheCommand := by
  intro s c hc hr
  refine ⟨fun hb => ?_, fun hb => ?_⟩
  · exact memWrite_of_idle (l := .cmd) hc rfl hr hb c
  · exact memWrite_of_dropped (l := .cmd) hc rfl hr hb rfl c

/-! ### Illegal words -/

theorem seqMove_accept_of_illegal {c : Word} {why : IllegalWord} (h : decode c = .illegal why) (s : State) :
    seqMove (accept c s) = some (.next (commitError (illegalSubCause why, 0) (accept c s))) := by
  simp only [seqMove, accept_phase, accept_op, h]

theorem commitError_eq_committedWith (e : CommandError) (s : State) :
    commitError e s = committedWith s e.1.kind e.1 (BitVec.ofNat 16 e.2) := rfl

/-- Settles O20: the sequencer commits an illegal word with the sub-cause that decode names. -/
theorem illegalWordsCommitTheirError : Obligations.IllegalWordsCommitTheirError := by
  refine ⟨rfl, rfl, rfl, fun s c => ⟨rfl, fun hr => ?_, fun hr ho => ?_⟩⟩
  · rw [seqMove_accept_of_illegal (decode_of_reservedBits hr), commitError_eq_committedWith]
    rfl
  · rw [seqMove_accept_of_illegal (decode_of_opReserved hr ho), commitError_eq_committedWith]
    rfl

end Sys2Proof.Machine
end

section
/-! PROOFS. The expansions of the pseudo-instructions (30_encoding.md R117). -/

namespace Sys2Proof.Machine

/-- The entries written are numbered from the expansion's start on. -/
theorem expandWrbuf_eq_mapIdx (win : Window) (vs : List Word) (n : Nat) :
    expandWrbuf win n vs = vs.mapIdx fun i v => .wr (.named (win.entry (i + n))) v := by
  induction vs generalizing n with
  | nil => rfl
  | cons v vs ih => simp [expandWrbuf, ih, Nat.add_comm, Nat.add_left_comm]

theorem expandWrpairs_eq_mapIdx (ps : List (Word × Word)) (n : Nat) :
    expandWrpairs n ps =
      (ps.mapIdx fun i p => [.wr (.named (.pairPt (i + n))) p.1, .wr (.named (.pairCt (i + n))) p.2]).flatten := by
  induction ps generalizing n with
  | nil => rfl
  | cons p ps ih => simp [expandWrpairs, ih, Nat.add_comm, Nat.add_left_comm]

/-- Settles O58: the two list expansions by induction on the list, the others as they are defined. -/
theorem pseudoInstructionsExpand : Obligations.PseudoInstructionsExpand := fun _ _ =>
  ⟨fun _ _ _ => rfl, rfl, fun _ => rfl, rfl, fun win vs => expandWrbuf_eq_mapIdx win vs 0,
    fun ps => expandWrpairs_eq_mapIdx ps 0, rfl, rfl⟩

end Sys2Proof.Machine
end

section
/-! PROOFS. The permutation engine (40_permutation.md): which input bit each output bit of `permute` is, the register
form of the six wirings, and IP and IPINV as inverses. -/

namespace Sys2Proof.Machine

/-! ### The bits of a permuted sequence -/

/-- R140 from the right: an output's bits, least significant first, are the bits that the table names, read from its
end. -/
theorem getLsbD_permute (m : Nat) (table : List Nat) (s : BitVec n) (j : Nat) :
    (permute m table s).getLsbD j = (decide (j < m) && (table.reverse.map (seqBit s)).getD j false) := by
  induction table using List.reverseRecOn generalizing j with
  | nil => simp [permute]
  | append_singleton ps p ih =>
    have hlast : permute m (ps ++ [p]) s =
        permute m ps s <<< 1 ||| (BitVec.ofBool (seqBit s p)).setWidth m := by
      simp [permute]
    rw [hlast, BitVec.getLsbD_or, BitVec.getLsbD_shiftLeft, ih]
    cases j with
    | zero => simp
    | succ j =>
      by_cases hj : j + 1 < m
      · simp [hj, Nat.lt_of_succ_lt hj]
      · simp [hj]

/-- R140 from the left, for a table with one entry for each output position. -/
theorem seqBit_permute {m p : Nat} {table : List Nat} (hlen : table.length = m) (hp : 1 ≤ p ∧ p ≤ m) (s : BitVec n) :
    seqBit (permute m table s) p = seqBit s (table.getD (p - 1) 0) := by
  have hidx : m - 1 - (m - p) = p - 1 := by omega
  have hlt : m - p < m := by omega
  have hlt' : p - 1 < m := by omega
  rw [seqBit, getLsbD_permute]
  simp [hlen, hidx, hlt, hlt']

/-- R10's register form: position p is register bit n - p, so the register bits that drive the outputs are the table's
entries counted from the other end. -/
theorem getLsbD_permute_register {m : Nat} {table bits : List Nat} (hlen : table.length = m)
    (hbits : table.map (n - ·) = bits) (s : BitVec n) (i : Fin m) :
    (permute m table s).getLsbD (m - 1 - i) = s.getLsbD (bits.getD i 0) := by
  have hpos : m - 1 - i = m - (i + 1) := by omega
  calc (permute m table s).getLsbD (m - 1 - i)
      = seqBit (permute m table s) (i + 1) := by rw [hpos, seqBit]
    _ = seqBit s (table.getD i 0) := seqBit_permute hlen ⟨by omega, i.isLt⟩ s
    _ = s.getLsbD (bits.getD i 0) := by simp [seqBit, ← hbits, hlen]

/-- Settles O1: the register form for each of the six tables. -/
theorem permutationsAreTheListedWirings : Obligations.PermutationsAreTheListedWirings :=
  ⟨getLsbD_permute_register rfl rfl, getLsbD_permute_register rfl rfl, getLsbD_permute_register rfl rfl,
    getLsbD_permute_register rfl rfl, getLsbD_permute_register rfl rfl, getLsbD_permute_register rfl rfl, by decide⟩

/-! ### IP and IPINV -/

theorem tableWf_iff {n : Nat} {table : List Nat} : tableWf n table = true ↔ ∀ p ∈ table, 1 ≤ p ∧ p ≤ n := by
  simp [tableWf]

/-- The result of `permute` depends on its input only through the bits that the table names. -/
theorem permute_congr {k n m : Nat} {s : BitVec k} {t : BitVec n} {ps qs : List Nat}
    (h : ps.map (seqBit s) = qs.map (seqBit t)) : permute m ps s = permute m qs t := by
  apply BitVec.eq_of_getLsbD_eq
  intro j _
  rw [getLsbD_permute, getLsbD_permute, List.map_reverse, List.map_reverse, h]

/-- Two wirings in a row are one wiring: the second table's entries are looked up in the first. -/
theorem permute_permute {k n : Nat} {inner outer : List Nat} (hlen : inner.length = n) (hwf : tableWf n outer = true)
    (m : Nat) (s : BitVec k) :
    permute m outer (permute n inner s) = permute m (outer.map fun p => inner.getD (p - 1) 0) s := by
  apply permute_congr
  rw [List.map_map]
  exact List.map_congr_left fun p hp => seqBit_permute hlen (tableWf_iff.mp hwf p hp) s

/-- The table that lists every position in order wires each bit to itself. -/
theorem permute_range' (n : Nat) (s : BitVec n) : permute n (List.range' 1 n) s = s := by
  apply BitVec.eq_of_getLsbD_eq
  intro j hj
  have hpos : n - (1 + (n - 1 - j)) = j := by omega
  rw [getLsbD_permute]
  simp [hj, seqBit, hpos]

/-- A table whose entries, looked up in another table, give every position in order undoes that table's wiring. -/
theorem permute_cancel {n : Nat} {inner outer : List Nat} (hlen : inner.length = n) (hwf : tableWf n outer = true)
    (hinv : (outer.map fun p => inner.getD (p - 1) 0) = List.range' 1 n) (s : BitVec n) :
    permute n outer (permute n inner s) = s := by
  rw [permute_permute hlen hwf, hinv, permute_range']

@[simp] theorem permIPINV_permIP (s : Byte) : permIPINV (permIP s) = s :=
  permute_cancel (inner := tableIP) (outer := tableIPINV) rfl rfl rfl s

@[simp] theorem permIP_permIPINV (s : Byte) : permIP (permIPINV s) = s :=
  permute_cancel (inner := tableIPINV) (outer := tableIP) rfl rfl rfl s

/-- Settles O2: each of the two tables, looked up in the other, gives the positions 1 to 8 in order. -/
theorem initialAndFinalPermutationsAreInverse : Obligations.InitialAndFinalPermutationsAreInverse :=
  fun s => ⟨permIPINV_permIP s, permIP_permIPINV s⟩

end Sys2Proof.Machine
end

section
/-! PROOFS. The key schedule (41_key_schedule.md): each subkey as one wiring of the master key, and the one position
that neither wiring names. -/

namespace Sys2Proof.Machine

/-! ### Wirings side by side and rotated -/

theorem permute_append {n : Nat} (m : Nat) (ps qs : List Nat) (s : BitVec n) :
    permute m (ps ++ qs) s = permute m ps s <<< qs.length ||| permute m qs s := by
  apply BitVec.eq_of_getLsbD_eq
  intro j hj
  rw [BitVec.getLsbD_or, BitVec.getLsbD_shiftLeft]
  simp only [getLsbD_permute, List.reverse_append, List.map_append]
  by_cases hlow : j < qs.length
  · rw [List.getD_append _ _ _ _ (by simpa using hlow)]
    simp [hlow]
  · have hlt : j - qs.length < m := by omega
    rw [List.getD_append_right _ _ _ _ (by simpa using hlow)]
    simp [hlow, hj, hlt]

theorem permute_append_permute {n a b : Nat} {ps qs : List Nat} (hlen : qs.length = b) (s : BitVec n) :
    permute a ps s ++ permute b qs s = permute (a + b) (ps ++ qs) s := by
  apply BitVec.eq_of_getLsbD_eq
  intro j hj
  rw [BitVec.getLsbD_append, permute_append, BitVec.getLsbD_or, BitVec.getLsbD_shiftLeft, hlen]
  simp only [getLsbD_permute]
  by_cases hlow : j < b
  · simp [hlow, hj]
  · have hlt : j - b < a := by omega
    have hlt' : j - b < a + b := by omega
    simp [hlow, hj, hlt, hlt', hlen]

/-- R161: the positions that stand first move to the end. -/
theorem rotl5_permute_append {n : Nat} {ps qs : List Nat} (hlen : ps.length + qs.length = 5) (s : BitVec n) :
    rotl5 (permute 5 (ps ++ qs) s) ps.length = permute 5 (qs ++ ps) s := by
  have hshift : 5 - ps.length = qs.length := by omega
  apply BitVec.eq_of_getLsbD_eq
  intro j hj
  rw [rotl5, hshift, permute_append, permute_append]
  simp only [BitVec.getLsbD_or, BitVec.getLsbD_shiftLeft, BitVec.getLsbD_ushiftRight, getLsbD_permute]
  by_cases hlow : j < ps.length
  · have hlt : qs.length + j < 5 := by omega
    simp [hlow, hj, hlt]
  · have hout : ¬ qs.length + j < 5 := by omega
    have hlt : j - ps.length < qs.length := by omega
    simp [hlow, hj, hout, hlt]

/-! ### The two subkeys as wirings of the master key -/

/-- The master-key positions that K1 takes, from the left. -/
def tableK1 : List Nat := [1, 7, 9, 4, 8, 3, 10, 6]

/-- The master-key positions that K2 takes, from the left. -/
def tableK2 : List Nat := [9, 4, 8, 3, 6, 5, 1, 10]

/-- R160's two halves of P10's output, each with the part of P10's table that wires it. -/
theorem permP10_eq_append (k : MasterKey) :
    permP10 k = permute 5 [3, 5, 2, 7, 4] k ++ permute 5 [10, 1, 9, 8, 6] k :=
  (permute_append_permute (a := 5) (ps := [3, 5, 2, 7, 4]) (qs := [10, 1, 9, 8, 6]) rfl k).symm

theorem extractLsb'_permP10_left (k : MasterKey) : (permP10 k).extractLsb' 5 5 = permute 5 [3, 5, 2, 7, 4] k := by
  rw [permP10_eq_append, BitVec.extractLsb'_append_eq_left]

theorem extractLsb'_permP10_right (k : MasterKey) : (permP10 k).extractLsb' 0 5 = permute 5 [10, 1, 9, 8, 6] k := by
  rw [permP10_eq_append, BitVec.extractLsb'_append_eq_right]

/-- R160's step from two halves to a subkey: each half's table is cut where the rotation cuts the half, and P8's entries
are looked up in the rotated tables. -/
theorem permP8_rotl5_append {n : Nat} {ps qs us vs : List Nat} (hps : ps.length = us.length)
    (hl : ps.length + qs.length = 5) (hr : us.length + vs.length = 5) (s : BitVec n) :
    permP8 (rotl5 (permute 5 (ps ++ qs) s) ps.length ++ rotl5 (permute 5 (us ++ vs) s) ps.length) =
      permute 8 (tableP8.map fun p => ((qs ++ ps) ++ (vs ++ us)).getD (p - 1) 0) s := by
  have hlenr : (vs ++ us).length = 5 := by rw [List.length_append]; omega
  have hlen : ((qs ++ ps) ++ (vs ++ us)).length = 10 := by simp only [List.length_append]; omega
  rw [rotl5_permute_append hl, hps, rotl5_permute_append hr, permute_append_permute hlenr]
  exact permute_permute hlen rfl 8 s

/-- R160 to R162: P10, the rotations of P10's halves by 1 and by 2, and P8 make one wiring for each subkey. -/
theorem genSubkeys_eq_permute (k : MasterKey) : genSubkeys k = (permute 8 tableK1 k, permute 8 tableK2 k) := by
  have hK1 := permP8_rotl5_append (ps := [3]) (qs := [5, 2, 7, 4]) (us := [10]) (vs := [1, 9, 8, 6]) rfl rfl rfl k
  have hK2 := permP8_rotl5_append (ps := [3, 5]) (qs := [2, 7, 4]) (us := [10, 1]) (vs := [9, 8, 6]) rfl rfl rfl k
  rw [genSubkeys, extractLsb'_permP10_left, extractLsb'_permP10_right]
  exact Prod.ext hK1 hK2

/-- Settles O3: the register form of the two wirings. -/
theorem subkeysAreTheListedKeyBits : Obligations.SubkeysAreTheListedKeyBits := by
  refine ⟨fun k => ?_, fun k => ?_, by decide, by decide⟩
  · rw [genSubkeys_eq_permute]
    exact getLsbD_permute_register (table := tableK1) rfl rfl k
  · rw [genSubkeys_eq_permute]
    exact getLsbD_permute_register (table := tableK2) rfl rfl k

/-! ### The unused key position -/

/-- Two sequences are wired to the same output exactly when they agree at every position that the table names. -/
theorem permute_eq_permute_iff {n m : Nat} {table : List Nat} (hlen : table.length = m) {s t : BitVec n} :
    permute m table s = permute m table t ↔ ∀ p ∈ table, seqBit s p = seqBit t p := by
  constructor
  · intro heq
    rw [List.forall_mem_iff_getElem]
    intro i hi
    have hs := seqBit_permute hlen (p := i + 1) ⟨by omega, by omega⟩ s
    have ht := seqBit_permute hlen (p := i + 1) ⟨by omega, by omega⟩ t
    rw [heq, ht] at hs
    simpa [hi] using hs.symm
  · exact fun hagree => permute_congr (List.map_congr_left hagree)

/-- Two words agree at every bit but bit `j` exactly when they are equal or differ in that bit alone. -/
theorem forall_ne_getLsbD_eq_iff {w : Nat} {x y : BitVec w} (j : Nat) :
    (∀ i, i < w ∧ i ≠ j → x.getLsbD i = y.getLsbD i) ↔ x = y ∨ x = y ^^^ BitVec.twoPow w j := by
  constructor
  · intro hagree
    by_cases hj : x.getLsbD j = y.getLsbD j
    · left
      apply BitVec.eq_of_getLsbD_eq
      intro i hw
      by_cases hi : i = j
      · exact hi ▸ hj
      · exact hagree i ⟨hw, hi⟩
    · right
      apply BitVec.eq_of_getLsbD_eq
      intro i hw
      rw [BitVec.getLsbD_xor, BitVec.getLsbD_twoPow]
      by_cases hi : i = j
      · subst hi
        simpa [hw, Bool.eq_not_iff] using hj
      · simp [hagree i ⟨hw, hi⟩, Ne.symm hi]
  · rintro (rfl | rfl) i ⟨_, hi⟩
    · rfl
    · simp [BitVec.getLsbD_twoPow, Ne.symm hi]

/-- R163: K1 and K2 together take every register bit of the key but bit 8, which is key position 2. -/
theorem mem_subkey_bits_iff (i : Nat) : i ∈ (tableK1 ++ tableK2).map (10 - ·) ↔ i < 10 ∧ i ≠ 8 := by
  have hbits : (tableK1 ++ tableK2).map (10 - ·) = [9, 3, 1, 6, 2, 7, 0, 4, 1, 6, 2, 7, 4, 5, 9, 0] := rfl
  simp only [hbits, List.mem_cons, List.not_mem_nil, or_false]
  omega

theorem genSubkeys_eq_iff {k l : MasterKey} :
    genSubkeys k = genSubkeys l ↔ ∀ i, i < 10 ∧ i ≠ 8 → k.getLsbD i = l.getLsbD i :=
  calc genSubkeys k = genSubkeys l
      ↔ ∀ p ∈ tableK1 ++ tableK2, seqBit k p = seqBit l p := by
        rw [genSubkeys_eq_permute, genSubkeys_eq_permute, Prod.mk.injEq, List.forall_mem_append,
          permute_eq_permute_iff (m := 8) (table := tableK1) rfl,
          permute_eq_permute_iff (m := 8) (table := tableK2) rfl]
    _ ↔ ∀ i ∈ (tableK1 ++ tableK2).map (10 - ·), k.getLsbD i = l.getLsbD i := by
        simp only [List.forall_mem_map, seqBit]
    _ ↔ ∀ i, i < 10 ∧ i ≠ 8 → k.getLsbD i = l.getLsbD i := by simp only [mem_subkey_bits_iff]

/-- Settles O4: the subkeys fix every key bit but KEY[8], and KEY[8] is the bit of 0x100. -/
theorem onlyKeyPositionTwoIsUnused : Obligations.OnlyKeyPositionTwoIsUnused :=
  fun _ _ => genSubkeys_eq_iff.trans (forall_ne_getLsbD_eq_iff 8)

end Sys2Proof.Machine
end

section
/-! PROOFS. The S-box ROMs (42_round_function.md R180 to R182): reading a row-major ROM is indexing its table. -/

namespace Sys2Proof.Machine

/-- R180's address: in a table whose rows all have `n` entries, entry `c` of row `r` is word `n * r + c` of the rows laid
end to end. -/
theorem getD_flatten_of_length_eq {α : Type} {n c : Nat} {rows : List (List α)}
    (hlen : ∀ row ∈ rows, row.length = n) (hc : c < n) (r : Nat) (d : α) :
    rows.flatten.getD (n * r + c) d = (rows.getD r []).getD c d := by
  induction rows generalizing r with
  | nil => simp
  | cons row rows ih =>
    obtain ⟨hrow, hrows⟩ := List.forall_mem_cons.mp hlen
    rw [List.flatten_cons]
    cases r with
    | zero => rw [List.getD_append _ _ _ _ (by omega), Nat.mul_zero, Nat.zero_add, List.getD_cons_zero]
    | succ r =>
      have haddr : n * (r + 1) + c - row.length = n * r + c := by rw [hrow, Nat.mul_succ]; omega
      rw [List.getD_append_right _ _ _ _ (by rw [hrow, Nat.mul_succ]; omega), haddr, List.getD_cons_succ, ih hrows]

theorem sboxCol_lt (g : Nibble) : sboxCol g < 4 := by
  have h2 := Bool.toNat_le (seqBit g 2)
  have h3 := Bool.toNat_le (seqBit g 3)
  rw [sboxCol]
  omega

/-- R182: a lookup is the table's entry at the segment's row and column, for any contents in rows of four. -/
theorem sbox_eq_getD_getD {sx : List (List (BitVec 2))} (hlen : ∀ row ∈ sx, row.length = 4) (g : Nibble) :
    sbox sx g = (sx.getD (sboxRow g) []).getD (sboxCol g) 0 :=
  getD_flatten_of_length_eq hlen (sboxCol_lt g) (sboxRow g) 0

/-- Settles O5: the listings and R181's register form are the definitions; the lookup is the row-major address. -/
theorem sboxRomsHoldTheListedWords : Obligations.SboxRomsHoldTheListedWords := by
  refine ⟨rfl, rfl, by decide, by decide, fun g => ⟨rfl, rfl⟩, fun g => ⟨?_, ?_⟩⟩
  · exact sbox_eq_getD_getD (sx := sboxS1) (by decide) g
  · exact sbox_eq_getD_getD (sx := sboxS2) (by decide) g

end Sys2Proof.Machine
end

section
/-! PROOFS. The block cipher (43_block_cipher.md R201, R202, R205): the network run with its subkeys swapped undoes
itself, and what that and the key schedule say of ENCRYPT8 and DECRYPT8. -/

namespace Sys2Proof.Machine

/-! ### The network -/

/-- R201's two rounds on the halves of the permuted block. -/
theorem feistelWith_of_halves {b : Byte} {l r : Nibble} (h : permIP b = l ++ r) (sx sy : List (List (BitVec 2)))
    (ka kb : Byte) :
    feistelWith sx sy b ka kb =
      permIPINV ((r ^^^ roundFWith sx sy (l ^^^ roundFWith sx sy r ka) kb) ++ (l ^^^ roundFWith sx sy r ka)) := by
  rw [feistelWith, h, BitVec.extractLsb'_append_eq_left, BitVec.extractLsb'_append_eq_right]

theorem exists_halves (b : Byte) : ∃ l r : Nibble, b = l ++ r :=
  ⟨_, _, (BitVec.extractLsb'_append_extractLsb' (w := 4) (len := 4) (x := b)).symm⟩

/-- R205: the second run meets the halves that the first run's final permutation hid, and its rounds XOR the same round
outputs in again, last one first. What the round function computes does not matter. -/
theorem feistelWith_swap_feistelWith (sx sy : List (List (BitVec 2))) (b ka kb : Byte) :
    feistelWith sx sy (feistelWith sx sy b ka kb) kb ka = b := by
  obtain ⟨l, r, h⟩ := exists_halves (permIP b)
  rw [feistelWith_of_halves h, feistelWith_of_halves (permIP_permIPINV _)]
  simp only [BitVec.xor_assoc, BitVec.xor_self, BitVec.xor_zero]
  rw [← h, permIPINV_permIP]

@[simp] theorem decrypt8_encrypt8 (b : Byte) (k : MasterKey) : decrypt8 (encrypt8 b k) k = b :=
  feistelWith_swap_feistelWith _ _ _ _ _

@[simp] theorem encrypt8_decrypt8 (b : Byte) (k : MasterKey) : encrypt8 (decrypt8 b k) k = b :=
  feistelWith_swap_feistelWith _ _ _ _ _

theorem decrypt8_of_encrypt8_eq {b c : Byte} {k : MasterKey} (h : encrypt8 b k = c) : decrypt8 c k = b := by
  rw [← h, decrypt8_encrypt8]

/-! ### Keys with related subkeys -/

theorem encrypt8_congr {k l : MasterKey} (h : genSubkeys k = genSubkeys l) (b : Byte) : encrypt8 b k = encrypt8 b l := by
  rw [encrypt8, encrypt8, h]

/-- With K1 = K2 the reversed order of R202 is the same order. -/
theorem decrypt8_eq_encrypt8 {k : MasterKey} (h : (genSubkeys k).1 = (genSubkeys k).2) (b : Byte) :
    decrypt8 b k = encrypt8 b k := by
  rw [decrypt8, encrypt8, h]

/-! ### Blocks in 32-bit registers and entries (R30, R31, R39, R40) -/

theorem toNat_setWidth_byte_lt (b : Byte) : (b.setWidth 32 : Word).toNat < 256 := by
  rw [BitVec.toNat_setWidth_of_le (by decide)]
  exact b.isLt

@[simp] theorem blockOf_setWidth (b : Byte) : blockOf (b.setWidth 32) = b := by
  rw [blockOf, BitVec.setWidth_setWidth_of_le _ (by decide), BitVec.setWidth_eq]

theorem setWidth_blockOf {w : Word} (h : w.toNat < 256) : (blockOf w).setWidth 32 = w := by
  apply BitVec.eq_of_toNat_eq
  rw [BitVec.toNat_setWidth_of_le (by decide), blockOf, BitVec.toNat_setWidth, Nat.mod_eq_of_lt h]

end Sys2Proof.Machine
end

section
/-! PROOFS. ENC_BLOCK and DEC_BLOCK (43_block_cipher.md R203 to R206), for any cipher in the commands' shared rule. -/

namespace Sys2Proof.Machine

theorem blockError_of_dinRange {s : State} (hd : 256 ≤ s.din.toNat) : blockError s = some (.dinRange, 0) :=
  if_pos hd

theorem keyError_of_keyRange {s : State} (hk : 1024 ≤ s.key.toNat) : keyError s = some (.keyRange, 0) :=
  if_pos hk

theorem blockError_of_keyRange {s : State} (hd : s.din.toNat < 256) (hk : 1024 ≤ s.key.toNat) :
    blockError s = some (.keyRange, 0) := by
  rw [blockError, if_neg (by omega), keyError_of_keyRange hk]

theorem blockCommand_of_error {s : State} {e : CommandError} (h : blockError s = some e)
    (cipher : Byte → MasterKey → Byte) : blockCommand cipher s = commitError e s :=
  checked_some h _ s

theorem blockCommand_of_no_error {s : State} (h : blockError s = none) (cipher : Byte → MasterKey → Byte) :
    blockCommand cipher s = commitOk { s with dout := cipher (blockOf s.din) (masterKey s) } :=
  checked_none h _ s

/-- R203 and R204: the three outcomes of a block command, each with its whole effect. -/
theorem exec_block_effect {i : Instr} {s : State} {cipher : Byte → MasterKey → Byte}
    (hexec : exec i s = .next (blockCommand cipher s)) :
    (256 ≤ s.din.toNat → exec i s = .next (committedWith s .invalidInput .dinRange 0)) ∧
    (s.din.toNat < 256 → 1024 ≤ s.key.toNat → exec i s = .next (committedWith s .invalidInput .keyRange 0)) ∧
    (s.din.toNat < 256 → s.key.toNat < 1024 → exec i s =
      .next { committedWith s .none .noError 0 with dout := cipher (s.din.setWidth 8) (s.key.setWidth 10) }) := by
  rw [hexec]
  refine ⟨fun hd => ?_, fun hd hk => ?_, fun hd hk => ?_⟩
  · rw [blockCommand_of_error (blockError_of_dinRange hd), commitError_eq_committedWith]
    rfl
  · rw [blockCommand_of_error (blockError_of_keyRange hd hk), commitError_eq_committedWith]
    rfl
  · rw [blockCommand_of_no_error (blockError_eq_none_iff.2 ⟨hd, hk⟩)]
    rfl

/-- Settles O6: the network undoes itself with its subkeys swapped; DOUT is a block, so DIN = DOUT is in range for the
second command. -/
theorem decryptionUndoesEncryption : Obligations.DecryptionUndoesEncryption := by
  refine ⟨feistelWith_swap_feistelWith, fun b k => ⟨decrypt8_encrypt8 b k, encrypt8_decrypt8 b k⟩, ?_⟩
  intro s t u v hd hk henc hkey hdin hdec
  obtain rfl : blockCommand encrypt8 s = t := Host.Outcome.next.inj henc
  obtain rfl : blockCommand decrypt8 u = v := Host.Outcome.next.inj hdec
  have hs : blockError s = none := blockError_eq_none_iff.2 ⟨hd, hk⟩
  rw [blockCommand_of_no_error hs, commitOk_dout] at hdin
  have hu : blockError u = none := by
    rw [blockError_eq_none_iff, hdin, hkey]
    exact ⟨toNat_setWidth_byte_lt _, hk⟩
  have hmaster : masterKey u = masterKey s := by rw [masterKey, masterKey, hkey]
  rw [blockCommand_of_no_error hu, commitOk_dout]
  simp only [hdin, blockOf_setWidth, hmaster, decrypt8_encrypt8]
  exact setWidth_blockOf hd

/-- Settles O23: 0x282 and 0x382 differ in the key bit that no subkey takes. -/
theorem encBlockEncryptsOrRejects : Obligations.EncBlockEncryptsOrRejects :=
  ⟨rfl, fun _ => exec_block_effect (cipher := encrypt8) rfl,
    encrypt8_congr ((onlyKeyPositionTwoIsUnused _ _).2 (.inr rfl)),
    by decide +kernel, by decide +kernel, by decide +kernel⟩

/-- Settles O24: the keys 0 and 0x3FF have K1 = K2. -/
theorem decBlockDecryptsOrRejects : Obligations.DecBlockDecryptsOrRejects :=
  ⟨rfl, fun _ => exec_block_effect (cipher := decrypt8) rfl,
    fun b => ⟨decrypt8_eq_encrypt8 (by decide) b, decrypt8_eq_encrypt8 (by decide) b⟩,
    by decide +kernel, decrypt8_of_encrypt8_eq (by decide +kernel), by decide +kernel⟩

/-! ### What a block command depends on -/

theorem blockError_congr {s t : State} (hd : s.din = t.din) (hk : s.key = t.key) : blockError s = blockError t := by
  rw [blockError, blockError, keyError, keyError, hd, hk]

/-- R206 for the shared rule: both states raise the same error or none, and the cipher's arguments are the same. -/
theorem blockCommand_congr {s t : State} (hd : s.din = t.din) (hk : s.key = t.key) (cipher : Byte → MasterKey → Byte) :
    (blockCommand cipher s).status.errCode = (blockCommand cipher t).status.errCode ∧
    (blockCommand cipher s).errInfo = (blockCommand cipher t).errInfo ∧
    ((blockCommand cipher s).status.errCode = .none → (blockCommand cipher s).dout = (blockCommand cipher t).dout) := by
  have herr := blockError_congr hd hk
  cases hs : blockError s with
  | some e =>
    rw [blockCommand_of_error hs, blockCommand_of_error (herr.symm.trans hs)]
    refine ⟨rfl, rfl, fun hnone => ?_⟩
    have hkind : e.1.kind = .none := hnone
    rw [commandError_kind (.inl hs)] at hkind
    cases hkind
  | none =>
    rw [blockCommand_of_no_error hs, blockCommand_of_no_error (herr.symm.trans hs)]
    have hdout : cipher (blockOf s.din) (masterKey s) = cipher (blockOf t.din) (masterKey t) := by
      rw [masterKey, masterKey, hd, hk]
    exact ⟨rfl, rfl, fun _ => hdout⟩

/-- Settles O25: each of the two commands is the shared rule with its cipher. -/
theorem blockCommandsDependOnDinAndKeyOnly : Obligations.BlockCommandsDependOnDinAndKeyOnly := by
  rintro i s t s' t' (rfl | rfl) hd hk hs ht
  · cases hs
    cases ht
    exact blockCommand_congr hd hk encrypt8
  · cases hs
    cases ht
    exact blockCommand_congr hd hk decrypt8

end Sys2Proof.Machine
end

section
/-! PROOFS. ENC_TEXT and DEC_TEXT (43_block_cipher.md R208 to R210), for any cipher in the commands' shared rule. -/

namespace Sys2Proof.Machine

theorem textError_of_textLenRange {s : State} (h : s.cfg.textDepth < s.textLen.toNat) :
    textError s = some (.textLenRange, 0) :=
  if_pos h

theorem textError_of_unitRange {s : State} {i : Nat} (hlen : s.textLen.toNat ≤ s.cfg.textDepth)
    (hi : i < s.textLen.toNat) (hbad : 256 ≤ (textIn s i).toNat) (hlow : ∀ j < i, (textIn s j).toNat < 256) :
    textError s = some (.textUnitRange, i) := by
  rw [textError, if_neg (by omega), firstBadUnit_eq_some hi hbad hlow]

theorem textError_of_keyRange {s : State} (hlen : s.textLen.toNat ≤ s.cfg.textDepth)
    (hunits : ∀ i < s.textLen.toNat, (textIn s i).toNat < 256) (hk : 1024 ≤ s.key.toNat) :
    textError s = some (.keyRange, 0) := by
  rw [textError, if_neg (by omega), firstBadUnit_eq_none_iff.2 hunits]
  exact keyError_of_keyRange hk

theorem textCommand_of_error {s : State} {e : CommandError} (h : textError s = some e)
    (cipher : Byte → MasterKey → Byte) : textCommand cipher s = commitError e s :=
  checked_some h _ s

theorem textCommand_of_no_error {s : State} (h : textError s = none) (cipher : Byte → MasterKey → Byte) :
    textCommand cipher s = commitOk { s with ram := writeUnits cipher s s.textLen.toNat } :=
  checked_none h _ s

/-- R208 and R209: the four outcomes of a text command, each with its whole effect. -/
theorem exec_text_effect {i : Instr} {s : State} {cipher : Byte → MasterKey → Byte}
    (hexec : exec i s = .next (textCommand cipher s)) :
    (s.cfg.textDepth < s.textLen.toNat → exec i s = .next (committedWith s .invalidInput .textLenRange 0)) ∧
    (s.textLen.toNat ≤ s.cfg.textDepth → ∀ j < s.textLen.toNat, 256 ≤ (textIn s j).toNat →
      (∀ k < j, (textIn s k).toNat < 256) →
      exec i s = .next (committedWith s .invalidInput .textUnitRange (BitVec.ofNat 16 j))) ∧
    (s.textLen.toNat ≤ s.cfg.textDepth → (∀ j < s.textLen.toNat, (textIn s j).toNat < 256) → 1024 ≤ s.key.toNat →
      exec i s = .next (committedWith s .invalidInput .keyRange 0)) ∧
    (s.textLen.toNat ≤ s.cfg.textDepth → (∀ j < s.textLen.toNat, (textIn s j).toNat < 256) → s.key.toNat < 1024 →
      ∃ m, exec i s = .next { committedWith s .none .noError 0 with ram := m } ∧
        (∀ j < s.textLen.toNat, textOut { s with ram := m } j = cipher ((textIn s j).setWidth 8) (s.key.setWidth 10)) ∧
        (∀ a, (∀ j < s.textLen.toNat, a ≠ textOutOff j) → ramByte { s with ram := m } a = ramByte s a) ∧
        (s.textLen = 0 → m = s.ram)) := by
  rw [hexec]
  refine ⟨fun hlen => ?_, fun hlen j hj hbad hlow => ?_, fun hlen hunits hk => ?_, fun hlen hunits hk => ?_⟩
  · rw [textCommand_of_error (textError_of_textLenRange hlen), commitError_eq_committedWith]
    rfl
  · rw [textCommand_of_error (textError_of_unitRange hlen hj hbad hlow), commitError_eq_committedWith]
    rfl
  · rw [textCommand_of_error (textError_of_keyRange hlen hunits hk), commitError_eq_committedWith]
    rfl
  · rw [textCommand_of_no_error (textError_eq_none_iff.2 ⟨hlen, hunits, hk⟩)]
    refine ⟨writeUnits cipher s s.textLen.toNat, rfl, ?_, ?_, fun hzero => ?_⟩
    · exact textOut_writeUnits cipher s _ _ rfl
    · exact ramByte_writeUnits cipher s _ _ rfl rfl
    · rw [hzero]
      rfl

/-- R208's example: "Hi!" under the key 0x282. -/
theorem encrypt8_hi : encrypt8 0x48 0x282 = 0xE4 ∧ encrypt8 0x69 0x282 = 0x83 ∧ encrypt8 0x21 0x282 = 0xAD := by
  decide +kernel

/-- Settles O26: the shared rule of the text commands with ENCRYPT8. -/
theorem encTextEncryptsOrRejects : Obligations.EncTextEncryptsOrRejects :=
  ⟨rfl, encrypt8_hi, fun _ => exec_text_effect (cipher := encrypt8) rfl⟩

/-- Settles O27: the shared rule of the text commands with DECRYPT8; R209's example is R208's read backwards. -/
theorem decTextDecryptsOrRejects : Obligations.DecTextDecryptsOrRejects := by
  obtain ⟨hcapital, hletter, hmark⟩ := encrypt8_hi
  exact ⟨rfl, ⟨decrypt8_of_encrypt8_eq hcapital, decrypt8_of_encrypt8_eq hletter, decrypt8_of_encrypt8_eq hmark⟩,
    fun _ => exec_text_effect (cipher := decrypt8) rfl⟩

/-! ### The round trip -/

theorem textOut_textCommand {s : State} (h : textError s = none) (cipher : Byte → MasterKey → Byte) {i : Nat}
    (hi : i < s.textLen.toNat) :
    textOut (textCommand cipher s) i = cipher (blockOf (textIn s i)) (masterKey s) := by
  rw [textCommand_of_no_error h]
  exact textOut_writeUnits cipher s _ _ rfl i hi

/-- Settles O28: every unit of TEXT_OUT is a block, so the copied text passes DEC_TEXT's checks, and each unit is
deciphered under the key that enciphered it. -/
theorem textRoundTrip : Obligations.TextRoundTrip := by
  intro s t u v hs henc hcfg hkey hlen hcopy hdec
  obtain rfl : textCommand encrypt8 s = t := Host.Outcome.next.inj henc
  obtain rfl : textCommand decrypt8 u = v := Host.Outcome.next.inj hdec
  obtain ⟨hdepth, hunits, hk⟩ := textError_eq_none_iff.1 hs
  have hu : textError u = none := by
    rw [textError_eq_none_iff, hlen, hcfg, hkey]
    refine ⟨hdepth, fun i hi => ?_, hk⟩
    rw [hcopy i hi]
    exact toNat_setWidth_byte_lt _
  have hmaster : masterKey u = masterKey s := by rw [masterKey, masterKey, hkey]
  refine ⟨?_, fun i hi => ?_⟩
  · rw [textCommand_of_no_error hu]
    rfl
  · have hunit : textOut (textCommand decrypt8 u) i = blockOf (textIn s i) :=
      calc textOut (textCommand decrypt8 u) i
          = decrypt8 (blockOf (textIn u i)) (masterKey u) := textOut_textCommand hu decrypt8 (by rwa [hlen])
        _ = decrypt8 (textOut (textCommand encrypt8 s) i) (masterKey s) := by
          rw [hcopy i hi, blockOf_setWidth, hmaster]
        _ = blockOf (textIn s i) := by rw [textOut_textCommand hs encrypt8 hi, decrypt8_encrypt8]
    rw [hunit, setWidth_blockOf (hunits i hi)]

end Sys2Proof.Machine
end

section
/-! PROOFS. SEARCH before its workers move (44_bruteforce.md R231 to R235): what validate() raises and in which order, the
launch, the worker count, the partition of the key space, and MATCHES. -/

namespace Sys2Proof.Machine

/-! ### validate() (R231) -/

theorem searchError_of_zero {s : State} (h : s.pairCount = 0) : searchError s = some (.pairCountZero, 0) :=
  if_pos h

theorem searchError_of_range {s : State} (h0 : s.pairCount ≠ 0) (h : s.cfg.pairDepth < s.pairCount.toNat) :
    searchError s = some (.pairCountRange, 0) := by
  rw [searchError, if_neg h0, if_pos h]

/-- The scan of the pairs stops at the first one that is out of range. -/
theorem searchError_of_pair {s : State} {i : Nat} {e : CommandError} (h0 : s.pairCount ≠ 0)
    (hdepth : s.pairCount.toNat ≤ s.cfg.pairDepth) (hi : i < s.pairCount.toNat)
    (hlow : ∀ j < i, (pairPt s j).toNat < 256 ∧ (pairCt s j).toNat < 256) (he : pairError s i = some e) :
    searchError s = some e := by
  have hscan : (List.range i).findSome? (pairError s) = none := by
    simpa [pairError_eq_none_iff] using hlow
  obtain ⟨n, hn⟩ : ∃ n, s.pairCount.toNat = (i + 1) + n := Nat.exists_eq_add_of_le hi
  rw [searchError, if_neg h0, if_neg (by omega), hn, List.range_add, List.range_succ]
  simp [List.findSome?_append, hscan, he]

theorem pairError_of_pt {s : State} {i : Nat} (h : 256 ≤ (pairPt s i).toNat) : pairError s i = some (.pairPtRange, i) :=
  if_pos h

theorem pairError_of_ct {s : State} {i : Nat} (hpt : (pairPt s i).toNat < 256) (h : 256 ≤ (pairCt s i).toNat) :
    pairError s i = some (.pairCtRange, i) := by
  rw [pairError, if_neg (by omega), if_pos h]

theorem exec_search_of_error {s : State} {e : CommandError} (h : searchError s = some e) :
    exec .search s = .next (committedWith s e.1.kind e.1 (BitVec.ofNat 16 e.2)) :=
  congrArg Host.Outcome.next (checked_some h launch s)

theorem exec_search_of_no_error {s : State} (h : searchError s = none) : exec .search s = .next (launch s) :=
  congrArg Host.Outcome.next (checked_none h launch s)

/-- Settles O31: each raise of validate() ends in the error commit with its sub-cause and index. -/
theorem searchRejectsBadPairs : Obligations.SearchRejectsBadPairs := by
  refine fun s => ⟨fun hzero => ?_, fun h0 hrange => ?_, fun h0 hdepth i hi hlow => ⟨fun hpt => ?_, fun hpt hct => ?_⟩⟩
  · exact exec_search_of_error (searchError_of_zero hzero)
  · exact exec_search_of_error (searchError_of_range h0 hrange)
  · exact exec_search_of_error (searchError_of_pair h0 hdepth hi hlow (pairError_of_pt hpt))
  · exact exec_search_of_error (searchError_of_pair h0 hdepth hi hlow (pairError_of_ct hpt hct))

/-! ### launch(W) (R234) -/

theorem getElem?_launch_workers (s : State) (w : Nat) :
    (launch s).workers[w]? = s.workers[w]?.map (launchWorker (effWorkers s) w) := by
  rw [launch_workers, List.getElem?_mapIdx]

/-- Settles O32: a SEARCH over valid pairs is its launch. -/
theorem searchLaunchesItsWorkers : Obligations.SearchLaunchesItsWorkers := by
  refine ⟨rfl, fun s h0 hdepth hpairs => ⟨(launch s).workers, ?_, ?_, fun w x hx => ?_⟩⟩
  · exact exec_search_of_no_error (searchError_eq_none_iff.2 ⟨h0, hdepth, hpairs⟩)
  · exact List.length_mapIdx
  · rw [getElem?_launch_workers, hx]
    rfl

/-! ### W_eff (R232) -/

/-- Settles O33: the clamped value is positive, so it is the same number as a natural and as an integer. -/
theorem workerCountIsClamped : Obligations.WorkerCountIsClamped := by
  refine ⟨fun s => ?_, by decide, by decide, by decide, by decide⟩
  have hpos : 0 ≤ max s.workersReq.toInt 1 := by omega
  rw [effWorkers, clampWorkers, Nat.cast_min, Int.toNat_of_nonneg hpos]

/-! ### The partition of the key space (R233) -/

/-- No smaller chunk would cover the key space. -/
theorem chunkSize_least {n : Nat} (h : 1 ≤ n) : (chunkSize n - 1) * n < 1024 := by
  have hdiv : chunkSize n * n ≤ 1024 + n - 1 := Nat.div_mul_le_self _ _
  rw [Nat.sub_mul]
  omega

theorem rangeLo_zero (n : Nat) : rangeLo n 0 = 0 := by simp [rangeLo]

theorem rangeHi_last {n : Nat} (h : 1 ≤ n) : rangeHi n (n - 1) = 1024 := by
  rw [rangeHi, Nat.sub_add_cancel h]
  exact Nat.min_eq_left (chunkSize_covers h)

theorem rangeHi_le_rangeLo {n v w : Nat} (h : v < w) : rangeHi n v ≤ rangeLo n w :=
  min_le_min_left _ (Nat.mul_le_mul_right _ h)

/-- A key is in one range only: of two ranges one ends before the other begins. -/
theorem range_unique {n k v w : Nat} (hv : rangeLo n v ≤ k ∧ k < rangeHi n v) (hw : rangeLo n w ≤ k ∧ k < rangeHi n w) :
    v = w := by
  rcases Nat.lt_trichotomy v w with hlt | heq | hgt
  · have := rangeHi_le_rangeLo (n := n) hlt
    omega
  · exact heq
  · have := rangeHi_le_rangeLo (n := n) hgt
    omega

/-- A non-empty range has `chunk` keys unless the end of the key space cuts it. -/
theorem range_size {n w : Nat} (h : rangeLo n w < rangeHi n w) :
    rangeHi n w - rangeLo n w ≤ chunkSize n ∧ (rangeHi n w < 1024 → rangeHi n w - rangeLo n w = chunkSize n) := by
  have hnext : (w + 1) * chunkSize n = w * chunkSize n + chunkSize n := Nat.succ_mul _ _
  unfold rangeLo rangeHi at *
  omega

/-- Settles O34: consecutive multiples of the least covering chunk, cut at 1024. -/
theorem partitionCoversTheKeySpaceOnce : Obligations.PartitionCoversTheKeySpaceOnce := by
  refine ⟨fun n hn => ⟨⟨?_, chunkSize_least hn⟩, fun w => ⟨rfl, rfl⟩, rangeLo_zero n, rangeHi_last hn, rangeHi_eq n,
    fun k hk => ?_, fun w => range_size⟩, by decide⟩
  · rw [Nat.mul_comm]
    exact chunkSize_covers hn
  · obtain ⟨w, hw, hrange⟩ := exists_range hn hk
    exact ⟨w, ⟨hw, hrange⟩, fun v ⟨_, hv⟩ => range_unique hv hrange⟩

/-! ### MATCHES (R235) -/

theorem matchesKey_iff {s : State} {k : Nat} : matchesKey s k = true ↔
    ∀ p < s.pairCount.toNat, encrypt8 (blockOf (pairPt s p)) (BitVec.ofNat 10 k) = blockOf (pairCt s p) := by
  simp only [matchesKey, List.all_eq_true, List.mem_range, beq_iff_eq]

/-- Settles O36: seq_8 of an entry is its low byte. -/
theorem matchesTestsEveryPair : Obligations.MatchesTestsEveryPair := fun _ _ => matchesKey_iff

end Sys2Proof.Machine
end

section
/-! PROOFS. A SEARCH while its workers move (44_bruteforce.md R236 to R245): what the launch establishes, every worker's
move keeps, and the join reads. -/

namespace Sys2Proof.Machine

/-! ### The state of a SEARCH in progress -/

/-- Every worker and AGG_MAP are as the workers' steps leave them: what `Inv` says of a launched SEARCH. -/
def SearchOk (s : State) : Prop := (∀ w x, s.workers[w]? = some x → workerOk s w x) ∧ aggOk s

/-- Key `k` is in a batch that has been merged: the right-hand side of `aggOk`. -/
def InMergedBatch (s : State) (k : Nat) : Prop :=
  ∃ w x, w < effWorkers s ∧ s.workers[w]? = some x ∧ x.phase = .merged ∧ x.lbuf.getLsbD k = true

theorem aggOk_iff {s : State} : aggOk s ↔ ∀ k < 1024, s.aggMap.getLsbD k = true ↔ InMergedBatch s k := Iff.rfl

theorem workerOk_congr {s t : State} (h : sameInputs s t) {w : Nat} {x : Worker} : workerOk t w x ↔ workerOk s w x := by
  obtain ⟨hcfg, -, -, -, hcount, hreq, hram, hepoch⟩ := h
  simp only [workerOk, effWorkers_congr hcfg hreq, matchesKey_congr hram hepoch hcount]

theorem lt_effWorkers_of_workerOk {s : State} {w : Nat} {x : Worker} (h : workerOk s w x) (hx : x.phase ≠ .idle) :
    w < effWorkers s := by
  by_contra hw
  rw [workerOk, if_neg hw] at h
  exact hx h

theorem lbuf_of_workerOk {s : State} {w k : Nat} {x : Worker} (h : workerOk s w x) (hw : w < effWorkers s)
    (hx : x.phase ≠ .run) (hk : k < 1024) :
    x.lbuf.getLsbD k =
      (decide (rangeLo (effWorkers s) w ≤ k ∧ k < rangeHi (effWorkers s) w) && matchesKey s k) := by
  rw [workerOk, if_pos hw] at h
  obtain ⟨hlo, hhi, -, -, -, hend, hbuf⟩ := h
  rw [hbuf k hk, hend hx, hlo, hhi]

/-! ### The launch (R234) -/

theorem workerOk_launchWorker {s : State} {w : Nat} {x : Worker} (h : x.phase = .idle) :
    workerOk s w (launchWorker (effWorkers s) w x) := by
  unfold workerOk launchWorker
  split
  · refine ⟨rfl, rfl, Nat.le_refl _, rangeLo_le_rangeHi _ _, by simp, fun hrun => absurd rfl hrun, fun k _ => ?_⟩
    have hnone : ¬ (rangeLo (effWorkers s) w ≤ k ∧ k < rangeLo (effWorkers s) w) := by omega
    simp [hnone]
  · exact h

/-- The launch of idle workers: no key is tested yet and no batch is merged. -/
theorem searchOk_launch {s : State} (h : ∀ x ∈ s.workers, x.phase = .idle) : SearchOk (launch s) := by
  have heff : effWorkers (launch s) = effWorkers s := rfl
  refine ⟨fun w y hy => ?_, fun k _ => ⟨fun hbit => ?_, fun ⟨w, y, hw, hy, hmerged, _⟩ => ?_⟩⟩
  · rw [getElem?_launch_workers, Option.map_eq_some_iff] at hy
    obtain ⟨x, hx, rfl⟩ := hy
    exact workerOk_launchWorker (s := launch s) (h x (List.mem_of_getElem? hx))
  · simp at hbit
  · rw [getElem?_launch_workers, Option.map_eq_some_iff] at hy
    obtain ⟨x, -, rfl⟩ := hy
    rw [launchWorker, if_pos (heff ▸ hw)] at hmerged
    cases hmerged

/-! ### The workers' moves (R236, R237, R244) -/

theorem workerMove_frame {s t : State} {w : Nat} (h : workerMove w s = some t) :
    t = { s with workers := t.workers, aggMap := t.aggMap, lock := t.lock } := by
  obtain ⟨x, -, ⟨-, -, rfl⟩ | ⟨-, -, rfl⟩ | ⟨-, -, rfl⟩⟩ := workerMove_cases h
  · rfl
  · rfl
  · rfl

theorem workerMove_of_idle {s : State} (h : ∀ x ∈ s.workers, x.phase = .idle) (w : Nat) : workerMove w s = none := by
  unfold workerMove
  cases hx : s.workers[w]? with
  | none => rfl
  | some x => simp [h x (List.mem_of_getElem? hx)]

/-- A test step (R236) tells one more key of the worker's range apart. -/
theorem workerOk_testStep {s : State} {w : Nat} {x : Worker} (h : workerOk s w x) (hrun : x.phase = .run)
    (hk : x.k < x.hi) : workerOk s w (testStep s x) := by
  have hw := lt_effWorkers_of_workerOk h (by simp [hrun])
  rw [workerOk, if_pos hw] at h ⊢
  obtain ⟨hlo, hhi, hlow, -, hidle, -, hbuf⟩ := h
  refine ⟨hlo, hhi, Nat.le_succ_of_le hlow, hk, hidle, fun hstop => absurd hrun hstop, fun j hj => ?_⟩
  rw [getLsbD_testStep s x j hj, hbuf j hj, testStep_lo, testStep_k]
  rcases eq_or_ne j x.k with rfl | hne
  · simp [hlow]
  · have hle : j ≤ x.k ↔ j < x.k := by omega
    simp [hne, hle]

/-- A worker at the end of its range may stand in any later phase (R237, R244). -/
theorem workerOk_setPhase {s : State} {w : Nat} {x : Worker} (h : workerOk s w x) (hx : x.phase ≠ .idle)
    (hend : x.k = x.hi) {p : WorkerPhase} (hp : p ≠ .idle) : workerOk s w { x with phase := p } := by
  have hw := lt_effWorkers_of_workerOk h hx
  rw [workerOk, if_pos hw] at h ⊢
  obtain ⟨hlo, hhi, hlow, hhigh, -, -, hbuf⟩ := h
  exact ⟨hlo, hhi, hlow, hhigh, hp, fun _ => hend, hbuf⟩

theorem rangeEnd_of_workerOk {s : State} {w : Nat} {x : Worker} (h : workerOk s w x) (hx : x.phase = .mergePending) :
    x.k = x.hi := by
  rw [workerOk, if_pos (lt_effWorkers_of_workerOk h (by simp [hx]))] at h
  obtain ⟨-, -, -, -, -, hend, -⟩ := h
  exact hend (by simp [hx])

/-- When one worker that is not MERGED moves, the merged batches gain at most its own. -/
theorem inMergedBatch_set {s t : State} {w k : Nat} {x y : Worker} (heff : effWorkers t = effWorkers s)
    (ht : t.workers = s.workers.set w y) (hw : w < effWorkers s) (hx : s.workers[w]? = some x)
    (hxm : x.phase ≠ .merged) :
    InMergedBatch t k ↔ InMergedBatch s k ∨ (y.phase = .merged ∧ y.lbuf.getLsbD k = true) := by
  have hself : t.workers[w]? = some y := by
    rw [ht, List.getElem?_set_self (List.getElem?_eq_some_iff.1 hx).1]
  have hother : ∀ v, v ≠ w → t.workers[v]? = s.workers[v]? := fun v hv => by
    rw [ht, List.getElem?_set_ne hv.symm]
  unfold InMergedBatch
  rw [heff]
  constructor
  · rintro ⟨v, z, hv, hz, hm, hb⟩
    rcases eq_or_ne v w with rfl | hne
    · obtain rfl : y = z := Option.some.inj (hself.symm.trans hz)
      exact .inr ⟨hm, hb⟩
    · exact .inl ⟨v, z, hv, (hother v hne) ▸ hz, hm, hb⟩
  · rintro (⟨v, z, hv, hz, hm, hb⟩ | ⟨hm, hb⟩)
    · have hne : v ≠ w := by
        rintro rfl
        obtain rfl : x = z := Option.some.inj (hx.symm.trans hz)
        exact hxm hm
      exact ⟨v, z, hv, (hother v hne).trans hz, hm, hb⟩
    · exact ⟨w, y, hw, hself, hm, hb⟩

/-- What a move of worker `w` has to meet: its own worker stays well, and AGG_MAP takes its batch in exactly when the
worker becomes MERGED. -/
theorem searchOk_of_set {s t : State} {w : Nat} {x y : Worker} (hok : SearchOk s) (hin : sameInputs s t)
    (ht : t.workers = s.workers.set w y) (hx : s.workers[w]? = some x) (hidle : x.phase ≠ .idle)
    (hmerged : x.phase ≠ .merged) (hy : workerOk s w y)
    (hagg : ∀ k, t.aggMap.getLsbD k = true ↔
      s.aggMap.getLsbD k = true ∨ (y.phase = .merged ∧ y.lbuf.getLsbD k = true)) :
    SearchOk t := by
  obtain ⟨hworkers, haggOk⟩ := hok
  have hw := lt_effWorkers_of_workerOk (hworkers w x hx) hidle
  have heff : effWorkers t = effWorkers s := by
    obtain ⟨hcfg, -, -, -, -, hreq, -, -⟩ := hin
    exact effWorkers_congr hcfg hreq
  refine ⟨fun v z hz => ?_, aggOk_iff.2 fun k hk => ?_⟩
  · rw [workerOk_congr hin]
    rw [ht, List.getElem?_set] at hz
    split at hz
    · rename_i hvw
      subst hvw
      obtain ⟨-, hyz⟩ := Option.ite_none_right_eq_some.1 hz
      exact Option.some.inj hyz ▸ hy
    · exact hworkers v z hz
  · rw [hagg, aggOk_iff.1 haggOk k hk, inMergedBatch_set heff ht hw hx hmerged]

theorem sameInputs_of_workerMove {s t : State} {w : Nat} (h : workerMove w s = some t) : sameInputs s t := by
  rw [workerMove_frame h]
  exact sameInputs_refl s

/-- Every worker's move keeps a SEARCH in progress as it should be. -/
theorem searchOk_of_workerMove {s t : State} {w : Nat} (hok : SearchOk s) (h : workerMove w s = some t) :
    SearchOk t := by
  have hin := sameInputs_of_workerMove h
  obtain ⟨x, hx, hmove⟩ := workerMove_cases h
  have hxok := hok.1 w x hx
  rcases hmove with ⟨hrun, hlt, rfl⟩ | ⟨hrun, hend, rfl⟩ | ⟨hpending, -, rfl⟩
  case inl =>
    exact searchOk_of_set hok hin rfl hx (by simp [hrun]) (by simp [hrun]) (workerOk_testStep hxok hrun hlt)
      (fun k => by simp [hrun])
  case inr.inl =>
    exact searchOk_of_set hok hin rfl hx (by simp [hrun]) (by simp [hrun])
      (workerOk_setPhase hxok (by simp [hrun]) hend (by simp)) (fun k => by simp)
  case inr.inr =>
    exact searchOk_of_set hok hin rfl hx (by simp [hpending]) (by simp [hpending])
      (workerOk_setPhase hxok (by simp [hpending]) (rangeEnd_of_workerOk hxok hpending) (by simp))
      (fun k => by simp)

/-! ### The join (R245) -/

/-- With every launched worker MERGED, AGG_MAP is the candidate key set: the ranges cover the key space (R233) and each
batch is the matching keys of its range. -/
theorem getLsbD_aggMap_of_allMerged {s : State} (hnw : 1 ≤ s.cfg.nw) (hok : SearchOk s) (hm : allMerged s = true)
    {k : Nat} (hk : k < 1024) : s.aggMap.getLsbD k = matchesKey s k := by
  obtain ⟨hworkers, hagg⟩ := hok
  rw [Bool.eq_iff_iff, hagg k hk]
  constructor
  · rintro ⟨w, x, hw, hx, hmerged, hbit⟩
    rw [lbuf_of_workerOk (hworkers w x hx) hw (by simp [hmerged]) hk, Bool.and_eq_true] at hbit
    exact hbit.2
  · intro hmatch
    obtain ⟨w, hw, hrange⟩ := exists_range (effWorkers_pos hnw) hk
    obtain ⟨x, hx, hmerged⟩ := allMerged_iff.1 hm w hw
    refine ⟨w, x, hw, hx, hmerged, ?_⟩
    rw [lbuf_of_workerOk (hworkers w x hx) hw (by simp [hmerged]) hk]
    simp [hrange, hmatch]

theorem seqMove_of_idle {s : State} (h : s.phase = .idle) : seqMove s = none := by
  simp only [seqMove, h]

theorem seqMove_of_cmd {s : State} {i : Instr} (h : s.phase = .exec) (hop : s.op = .cmd i) :
    seqMove s = some (exec i s) := by
  simp only [seqMove, h, hop]

/-- The sequencer's move of a launched SEARCH is its join. -/
theorem seqMove_searchRun {s t : State} (h : s.phase = .searchRun) (hmove : seqMove s = some (.next t)) :
    allMerged s = true ∧ t = join s := by
  obtain ⟨i, hexec, -⟩ | ⟨why, hexec, -⟩ | ⟨-, hm, ht⟩ := seqMove_cases hmove
  · rw [h] at hexec
    cases hexec
  · rw [h] at hexec
    cases hexec
  · exact ⟨hm, Host.Outcome.next.inj ht⟩

/-- The join leaves every worker IDLE: the launched ones return, the others never left (R245). -/
theorem join_workers_idle {s : State} (hok : SearchOk s) : ∀ x ∈ (join s).workers, x.phase = .idle := by
  intro y hy
  obtain ⟨w, hw⟩ := List.mem_iff_getElem?.1 hy
  rw [join_workers, List.getElem?_mapIdx, Option.map_eq_some_iff] at hw
  obtain ⟨x, hx, rfl⟩ := hw
  split
  · rfl
  · rename_i hunlaunched
    have hxok := hok.1 w x hx
    rwa [workerOk, if_neg hunlaunched] at hxok

end Sys2Proof.Machine
end

section
/-! PROOFS. SEARCH's result on every schedule (44_bruteforce.md R247, R248): the stages that a SEARCH passes through. -/

namespace Sys2Proof.Machine

/-- A predicate that every listed agent's move keeps holds at the end of the run. -/
theorem runAgents_induction {P : State → Prop} {as : List Agent}
    (hstep : ∀ a ∈ as, ∀ s t, P s → agentMove a s = some (.next t) → P t) {s t : State} (hs : P s)
    (hrun : runAgents as s = some t) : P t := by
  induction as generalizing s with
  | nil => exact Option.some.inj hrun ▸ hs
  | cons a as ih =>
    rw [runAgents] at hrun
    split at hrun
    · rename_i u hmove
      exact ih (fun b hb => hstep b (List.mem_cons_of_mem a hb)) (hstep a List.mem_cons_self s u hs hmove) hrun
    · cases hrun

/-- `t` is a state of the SEARCH accepted in `s`, between its launch and its join. -/
structure SearchRunning (s t : State) : Prop where
  phase : t.phase = .searchRun
  status : t.status = s.status
  inputs : sameInputs s t
  dout : t.dout = s.dout
  ctrl : t.ctrl = s.ctrl
  ok : SearchOk t

/-- The stages of the SEARCH accepted in `s` while only the core moves. -/
inductive SearchStage (s : State) : State → Prop where
  | accepted : SearchStage s s
  | running {t : State} (h : SearchRunning s t) : SearchStage s t
  | committed {t : State} (h : SearchRunning s t) (hm : allMerged t = true) : SearchStage s (join t)

theorem searchRunning_launch {s : State} (h : ∀ x ∈ s.workers, x.phase = .idle) : SearchRunning s (launch s) where
  phase := rfl
  status := rfl
  inputs := sameInputs_refl s
  dout := rfl
  ctrl := rfl
  ok := searchOk_launch h

theorem searchRunning_of_workerMove {s t u : State} {w : Nat} (h : SearchRunning s t) (hmove : workerMove w t = some u) :
    SearchRunning s u := by
  have hframe := workerMove_frame hmove
  exact {
    phase := hframe ▸ h.phase
    status := hframe ▸ h.status
    inputs := sameInputs_trans h.inputs (sameInputs_of_workerMove hmove)
    dout := hframe ▸ h.dout
    ctrl := hframe ▸ h.ctrl
    ok := searchOk_of_workerMove h.ok hmove }

/-- The sequencer launches the accepted SEARCH, joins the running one, and leaves the committed one. -/
theorem searchStage_of_seqMove {s t u : State} (hidle : ∀ x ∈ s.workers, x.phase = .idle) (hexec : s.phase = .exec)
    (hop : s.op = .cmd .search) (herr : searchError s = none) (h : SearchStage s t)
    (hmove : seqMove t = some (.next u)) : SearchStage s u := by
  cases h with
  | accepted =>
    rw [seqMove_of_cmd hexec hop, exec_search_of_no_error herr] at hmove
    cases hmove
    exact .running (searchRunning_launch hidle)
  | running hrun =>
    obtain ⟨hm, rfl⟩ := seqMove_searchRun hrun.phase hmove
    exact .committed hrun hm
  | committed hrun hm =>
    rw [seqMove_of_idle rfl] at hmove
    cases hmove

/-- The workers move in the running SEARCH only. -/
theorem searchStage_of_workerMove {s t u : State} {w : Nat} (hidle : ∀ x ∈ s.workers, x.phase = .idle)
    (h : SearchStage s t) (hmove : workerMove w t = some u) : SearchStage s u := by
  cases h with
  | accepted =>
    rw [workerMove_of_idle hidle] at hmove
    cases hmove
  | running hrun => exact .running (searchRunning_of_workerMove hrun hmove)
  | committed hrun hm =>
    rw [workerMove_of_idle (join_workers_idle hrun.ok)] at hmove
    cases hmove

theorem searchStage_of_coreMove {s t u : State} {a : Agent} (hidle : ∀ x ∈ s.workers, x.phase = .idle)
    (hexec : s.phase = .exec) (hop : s.op = .cmd .search) (herr : searchError s = none) (ha : a.isCore = true)
    (h : SearchStage s t) (hmove : agentMove a t = some (.next u)) : SearchStage s u := by
  obtain ⟨rfl, -⟩ | ⟨rfl, hseq⟩ | ⟨w, rfl, hworker⟩ := agentMove_next hmove
  · cases ha
  · exact searchStage_of_seqMove hidle hexec hop herr h hseq
  · exact searchStage_of_workerMove hidle h hworker

theorem nw_pos_of_wf {c : Config} (h : c.wf = true) : 1 ≤ c.nw := by
  simp only [Config.wf, Bool.and_eq_true, decide_eq_true_eq] at h
  omega

/-- Settles O40: of the stages only the committed one is idle, and its MATCH_MAP is AGG_MAP at the join. -/
theorem searchCommitsTheCandidateSet : Obligations.SearchCommitsTheCandidateSet := by
  intro s t as hinv hexec hop herr hcore hrun hidle
  have hworkers := hinv.workersIdle (by simp [hexec])
  have hstage : SearchStage s t :=
    runAgents_induction (fun a ha _ _ => searchStage_of_coreMove hworkers hexec hop herr (hcore a ha)) .accepted hrun
  cases hstage with
  | accepted =>
    rw [hexec] at hidle
    cases hidle
  | running h =>
    rw [h.phase] at hidle
    cases hidle
  | @committed u h hm =>
    obtain ⟨hcfg, -, -, -, hcount, hreq, hram, hepoch⟩ := h.inputs
    refine ⟨fun k hk => ?_, ?_, ?_, rfl, h.inputs, h.dout, h.ctrl, join_workers_idle h.ok⟩
    · rw [join_matchMap, ← matchesKey_congr hram hepoch hcount]
      exact getLsbD_aggMap_of_allMerged (hcfg ▸ nw_pos_of_wf hinv.cfgWf) h.ok hm hk
    · rw [join_workersEff, effWorkers_congr hcfg hreq]
    · rw [join_status, h.status]
      rfl

end Sys2Proof.Machine
end

section
/-! PROOFS. The candidate key sets (44_bruteforce.md R249, R250): what key position 2, which no subkey takes, does to
MATCHES and to every committed set. -/

namespace Sys2Proof.Machine

/-! ### The partner of a key -/

theorem partner_lt {k : Nat} (h : k < 1024) : k ^^^ 0x100 < 1024 := Nat.xor_lt_two_pow (n := 10) h (by decide)

theorem partner_partner (k : Nat) : k ^^^ 0x100 ^^^ 0x100 = k := by
  rw [Nat.xor_assoc, Nat.xor_self, Nat.xor_zero]

theorem partner_ne (k : Nat) : k ^^^ 0x100 ≠ k := by simp

theorem genSubkeys_partner (k : Nat) : genSubkeys (BitVec.ofNat 10 (k ^^^ 0x100)) = genSubkeys (BitVec.ofNat 10 k) :=
  (onlyKeyPositionTwoIsUnused _ _).2 (.inr BitVec.ofNat_xor)

theorem matchesKey_partner (s : State) (k : Nat) : matchesKey s (k ^^^ 0x100) = matchesKey s k := by
  simp only [matchesKey, encrypt8_congr (genSubkeys_partner k)]

/-! ### Closed sets -/

/-- The candidate keys of a closed set pair off, so they count to 0 in the integers mod 2. -/
theorem matchCount_even {m : KeySet} (h : ∀ k < 1024, m.getLsbD (k ^^^ 0x100) = m.getLsbD k) : Even (matchCount m) := by
  have hcard : matchCount m = {k ∈ Finset.range 1024 | m.getLsbD k = true}.card := by
    rw [← Nat.count_eq_card_filter_range]
    simp [matchCount, Nat.count]
  rw [hcard, ← ZMod.natCast_eq_zero_iff_even, Finset.card_eq_sum_ones, Nat.cast_sum]
  refine Finset.sum_involution (fun k _ => k ^^^ 0x100) ?_ ?_ ?_ ?_
  · intro k _
    decide
  · intro k _ _
    exact partner_ne k
  · intro k hk
    rw [Finset.mem_filter, Finset.mem_range] at hk ⊢
    obtain ⟨hlt, hbit⟩ := hk
    exact ⟨partner_lt hlt, (h k hlt).trans hbit⟩
  · intro k _
    exact partner_partner k

/-! ### The committed set -/

theorem getLsbD_matchMap_of_join {s t : State} (hinv : Inv s) (hphase : s.phase = .searchRun)
    (hmove : seqMove s = some (.next t)) {k : Nat} (hk : k < 1024) : t.matchMap.getLsbD k = matchesKey s k := by
  obtain ⟨hm, rfl⟩ := seqMove_searchRun hphase hmove
  obtain ⟨-, hok⟩ := hinv.searching hphase
  exact getLsbD_aggMap_of_allMerged (nw_pos_of_wf hinv.cfgWf) hok hm hk

/-- Settles O41: MATCHES does not see key position 2 and the join commits MATCHES; a set of one key would be odd. -/
theorem candidateSetsAreClosedAndEven : Obligations.CandidateSetsAreClosedAndEven := by
  refine ⟨fun s k _ => matchesKey_partner s k, fun s t hinv hphase hmove => ?_⟩
  have hset : ∀ k < 1024, t.matchMap.getLsbD k = matchesKey s k :=
    fun k hk => getLsbD_matchMap_of_join hinv hphase hmove hk
  have hclosed : ∀ k < 1024, t.matchMap.getLsbD (k ^^^ 0x100) = t.matchMap.getLsbD k := fun k hk => by
    rw [hset _ (partner_lt hk), hset k hk, matchesKey_partner]
  have heven := Nat.even_iff.1 (matchCount_even hclosed)
  exact ⟨hclosed, heven, by omega⟩

/-- Settles O42: the true key passes every test of MATCHES. -/
theorem searchFindsTheTrueKey : Obligations.SearchFindsTheTrueKey := by
  intro s t k hinv hphase hmove hk htrue
  have hmatch : matchesKey s k = true := matchesKey_iff.2 fun p hp => (htrue p hp).symm
  rw [getLsbD_matchMap_of_join hinv hphase hmove hk,
    getLsbD_matchMap_of_join hinv hphase hmove (partner_lt hk), matchesKey_partner]
  exact ⟨hmatch, hmatch⟩

end Sys2Proof.Machine
end

section
/-! PROOFS. Error commits and the interrupt line (60_exceptions.md R274, R283). -/

namespace Sys2Proof.Machine

/-! ### Error commits -/

/-- A successful commit records no error and a launch enters SEARCH_RUN, so an error recorded in an idle core comes from
the error commit. -/
theorem eq_commitError_of_seqMove {s t : State} (hmove : seqMove s = some (.next t)) (hidle : t.phase = .idle)
    (herr : t.status.errCode ≠ .none) : ∃ e, t = commitError e s := by
  obtain ⟨i, -, -, hexec⟩ | ⟨why, -, -, ht⟩ | ⟨-, -, ht⟩ := seqMove_cases hmove
  · obtain ⟨e, -, rfl⟩ | ⟨b, -, -, rfl⟩ | ⟨f, -, -, rfl⟩ | ⟨-, -, rfl⟩ := exec_cases hexec.symm
    · exact ⟨e, rfl⟩
    · exact absurd rfl herr
    · exact absurd rfl herr
    · cases hidle
  · exact ⟨_, Host.Outcome.next.inj ht⟩
  · obtain rfl := Host.Outcome.next.inj ht
    exact absurd rfl herr

/-- The error commit shows in STATUS and ERR_INFO only (30_encoding.md R113). -/
theorem readLoc_commitError {l : Loc} (hstatus : l ≠ .status) (herrInfo : l ≠ .errInfo) (e : CommandError) (s : State) :
    readLoc (commitError e s) l = readLoc s l := by
  cases l with
  | status => exact absurd rfl hstatus
  | errInfo => exact absurd rfl herrInfo
  | _ => rfl

/-- Settles O44: the step is an error commit of the state before it, and STATUS is no output location. -/
theorem errorsAreNeverPartial : Obligations.ErrorsAreNeverPartial := by
  intro s t hmove hidle herr
  obtain ⟨e, rfl⟩ := eq_commitError_of_seqMove hmove hidle herr
  refine ⟨fun l hout hl => readLoc_commitError ?_ hl e s, rfl, rfl, rfl, rfl, rfl, rfl⟩
  rintro rfl
  cases hout

/-! ### The interrupt line -/

theorem irq_of_done {s : State} (h : s.status.done = true) : irq s = s.ctrl.irqEn := by
  rw [irq, h, Bool.and_true]

theorem irq_of_not_done {s : State} (h : s.status.done = false) : irq s = false := by
  rw [irq, h, Bool.and_false]

theorem irq_of_not_enabled {s : State} (h : s.ctrl.irqEn = false) : irq s = false := by
  rw [irq, h, Bool.false_and]

theorem clear_done_of_bit {v : Word} (h : v.getLsbD 1 = true) (st : Status) : (st.clear v).done = false := by
  rw [clear_eq_ite, if_pos h]

/-- Settles O46: both commits set DONE; an acceptance, a write of 1 to DONE and the resets leave DONE = 0; DROPPED is no
part of irq. -/
theorem interruptFollowsDone : Obligations.InterruptFollowsDone := by
  intro s c v e
  refine ⟨rfl, ?commitOk, ?commitError, ?accept, fun hv => ?clear, rfl, ?disable, ?hardReset, ?softReset⟩
  case commitOk => exact irq_of_done rfl
  case commitError => exact irq_of_done rfl
  case accept => exact irq_of_not_done rfl
  case clear => exact irq_of_not_done (clear_done_of_bit hv s.status)
  case disable => exact irq_of_not_enabled rfl
  case hardReset => exact irq_of_not_done rfl
  case softReset => exact irq_of_not_done rfl

end Sys2Proof.Machine
end

section
/-! PROOFS. The state after a soft reset (70_reset_and_hazards.md R302) and the clean-entry state (R305). -/

namespace Sys2Proof.Machine

/-! ### Resets -/

@[simp] theorem length_resetWorkers (c : Config) (draw : Nat) : (resetWorkers c draw).length = c.nw := by
  simp [resetWorkers]

theorem phase_of_mem_resetWorkers {c : Config} {draw : Nat} {x : Worker} (h : x ∈ resetWorkers c draw) :
    x.phase = .idle := by
  obtain ⟨_, -, rfl⟩ := List.mem_map.mp h
  rfl

theorem word_statusReset : Status.reset.word = 0 := by decide

theorem word_errInfoZero : ErrInfo.zero.word = 0 := by decide

/-- Settles O48: CTRL is not in R78's list, so the write is `writeCtrl`; its soft reset is a hardware reset that keeps the
RAM, and the workers are those of a reset. -/
theorem softResetState : Obligations.SoftResetState := by
  intro s v hc hr hv
  rw [memWrite_ctrl hc hr]
  refine ⟨fun hbusy => ?busy, fun hidle => ⟨softReset s, ?written, ?fields⟩⟩
  case busy => rw [writeCtrl_reset_of_busy hv hbusy]
  case written => rw [writeCtrl_reset_of_idle hv hidle]
  case fields =>
    exact ⟨rfl, rfl, word_statusReset, word_errInfoZero, rfl, rfl, rfl, rfl, rfl, rfl, rfl, rfl, rfl, rfl, rfl, rfl,
      ⟨length_resetWorkers s.cfg s.draws, fun _ => phase_of_mem_resetWorkers⟩, rfl⟩

/-! ### The clean-entry state -/

theorem inReset_hardReset (s : State) : inReset (hardReset s) :=
  ⟨rfl, rfl, rfl, rfl, rfl, rfl, rfl, rfl, rfl, rfl, rfl, rfl, rfl, rfl, fun _ => phase_of_mem_resetWorkers, rfl⟩

theorem status_of_inReset {s : State} (h : inReset s) : s.status = Status.reset := by
  obtain ⟨-, hstatus, -⟩ := h
  exact hstatus

theorem cleanEntry_of_inReset {s : State} (h : inReset s) : cleanEntry s := by
  have hstatus := status_of_inReset h
  obtain ⟨-, -, -, -, -, -, -, -, -, -, -, -, -, hphase, hworkers, hlock⟩ := h
  refine ⟨?_, ?_, hphase, hworkers, hlock⟩ <;> rw [hstatus] <;> rfl

theorem cleanEntry_hardReset (s : State) : cleanEntry (hardReset s) := cleanEntry_of_inReset (inReset_hardReset s)

/-- The RAM, all that a soft reset keeps of what a hardware reset clears, is no part of the clean-entry state. -/
theorem cleanEntry_softReset (s : State) : cleanEntry (softReset s) := cleanEntry_hardReset s

/-- While `rst` is asserted a legal write still completes (R300; log 20). -/
theorem memWrite_offset_held {s : State} {l : Loc} (hc : s.cfg.wf = true) (hl : l.present s.cfg = true)
    (hr : s.rst = true) (v : Word) : memWrite s 4 (s.cfg.base + l.offset) v = (.written, s) :=
  Prod.ext (by rw [memWrite_offset hc hl]) (memWrite_held hr _ _ v)

/-- ACK, `STATUS <- 0x0000000A`, clears DONE and DROPPED (30_encoding.md R117). -/
theorem clear_ack (st : Status) : st.clear 0x0000000A = { st with done := false, dropped := false } := by
  rw [clear_eq_ite]
  rfl

/-- An idle core is at rest but for DROPPED, which ACK clears. -/
theorem cleanEntry_ack_of_idle {s : State} (hinv : Inv s) (hidle : s.phase = .idle) :
    cleanEntry { s with status := s.status.clear 0x0000000A } := by
  have hbusy : s.status.busy = false := Bool.eq_false_iff.mpr fun hb => hinv.busyIff.mp hb hidle
  rw [clear_ack]
  exact ⟨hbusy, rfl, hidle, hinv.workersIdle (by simp [hidle]), hinv.lockFree⟩

/-- Settles O49: the resets leave the state of R300, and ACK clears DROPPED of an idle core; while `rst` is asserted the
write has no effect and the invariant holds the core in the state of R300. -/
theorem cleanEntryStates : Obligations.CleanEntryStates := by
  refine ⟨cleanEntry_hardReset, cleanEntry_softReset, fun s hinv hidle => ?_⟩
  cases hr : s.rst with
  | true =>
    have hreset := hinv.held hr
    exact ⟨s, memWrite_offset_held (l := .status) hinv.cfgWf rfl hr _, cleanEntry_of_inReset hreset,
      by rw [status_of_inReset hreset]; rfl⟩
  | false =>
    exact ⟨_, memWrite_status hinv.cfgWf hr _, cleanEntry_ack_of_idle hinv hidle, by rw [clear_ack]⟩

end Sys2Proof.Machine
end

section
/-! PROOFS. Decode and encode agree (30_encoding.md R103, R107), and the words that the spec writes out. -/

namespace Sys2Proof.Machine

theorem commandWordWf_iff {c : Word} :
    commandWordWf c = true ↔ c.toNat / 16 = 0 ∧ 1 ≤ c.toNat % 16 ∧ c.toNat % 16 ≤ 5 := by
  simp only [commandWordWf, Bool.and_eq_true, decide_eq_true_eq, and_assoc]

/-- R103's table has a row for every OP from 1 to 5. -/
theorem exists_encode_toNat_eq {n : Nat} (h : 1 ≤ n ∧ n ≤ 5) : ∃ i, (encode i).toNat = n := by
  obtain rfl | rfl | rfl | rfl | rfl : n = 1 ∨ n = 2 ∨ n = 3 ∨ n = 4 ∨ n = 5 := by omega
  · exact ⟨.encBlock, rfl⟩
  · exact ⟨.decBlock, rfl⟩
  · exact ⟨.encText, rfl⟩
  · exact ⟨.decText, rfl⟩
  · exact ⟨.search, rfl⟩

theorem exists_encode_of_commandWordWf {c : Word} (h : commandWordWf c = true) : ∃ i, c = encode i := by
  obtain ⟨hrsvd, hop⟩ := commandWordWf_iff.1 h
  obtain ⟨i, hi⟩ := exists_encode_toNat_eq hop
  exact ⟨i, BitVec.eq_of_toNat_eq (by omega)⟩

/-- A word that fails the check fails one of the two tests of R107 that name an illegal class. -/
theorem exists_illegal_of_not_commandWordWf {c : Word} (h : ¬ commandWordWf c = true) :
    ∃ why, decode c = .illegal why := by
  rw [commandWordWf_iff] at h
  by_cases hrsvd : c.toNat / 16 = 0
  · exact ⟨_, decode_of_opReserved hrsvd (by omega)⟩
  · exact ⟨_, decode_of_reservedBits hrsvd⟩

theorem commandWordWf_of_decode {c : Word} {i : Instr} (h : decode c = .cmd i) : commandWordWf c = true := by
  by_contra hwf
  obtain ⟨why, hwhy⟩ := exists_illegal_of_not_commandWordWf hwf
  rw [hwhy] at h
  cases h

theorem decode_eq_cmd_iff {c : Word} {i : Instr} : decode c = .cmd i ↔ c = encode i := by
  refine ⟨fun h => ?_, fun h => h ▸ decode_encode i⟩
  obtain ⟨j, rfl⟩ := exists_encode_of_commandWordWf (commandWordWf_of_decode h)
  rw [decode_encode, Decoded.cmd.injEq] at h
  rw [h]

/-- Settles O9: a well-formed word is the encoding of the command that its OP names, and every other word is illegal. -/
theorem decodeAndEncodeAgree : Obligations.DecodeAndEncodeAgree := by
  refine ⟨fun i _ => decode_encode i, fun _ _ => decode_eq_cmd_iff, fun c => ⟨fun h => ?_, fun ⟨_, h⟩ => ?_⟩⟩
  · obtain ⟨i, rfl⟩ := exists_encode_of_commandWordWf h
    exact ⟨i, decode_encode i⟩
  · exact commandWordWf_of_decode h

/-- Settles O7: the five words are encodings, and each example fails one of R107's two illegal tests. -/
theorem writtenOutWordsDecode : Obligations.WrittenOutWordsDecode :=
  ⟨decode_encode .encBlock, decode_encode .decBlock, decode_encode .encText, decode_encode .decText,
    decode_encode .search, decode_of_opReserved (by decide) (by decide), decode_of_opReserved (by decide) (by decide),
    decode_of_reservedBits (by decide), decode_of_reservedBits (by decide)⟩

end Sys2Proof.Machine
end

section
/-! PROOFS. The invariant (10_state.md R26, R43; 60_exceptions.md R276, R288): it holds at reset, and every move of
every agent keeps it. -/

namespace Sys2Proof.Machine

/-! ### Reset -/

/-- The reset state meets the invariant whatever its unspecified values are: it is idle and no RAM byte is written. -/
theorem inv_of_inReset {s : State} (hcfg : s.cfg.wf = true) (hcount : s.workers.length = s.cfg.nw) (h : inReset s) :
    Inv s := by
  have hreset := h
  obtain ⟨-, hstatus, herr, -, -, -, -, -, -, -, -, -, hram, hphase, hworkers, hlock⟩ := h
  exact {
    cfgWf := hcfg
    ramWf := by simp [hram]
    ramMapped := by simp [hram]
    busyIff := by simp [hstatus, hphase, Status.reset]
    busyClear := by simp [hstatus, Status.reset]
    errInfoKind := by simp [hstatus, herr, Status.reset, ErrInfo.zero, SubCause.kind]
    noProgrammingError := by simp [hstatus, herr, Status.reset, ErrInfo.zero]
    workerCount := hcount
    lockFree := hlock
    workersIdle := fun _ => hworkers
    searching := by simp [hphase]
    held := fun _ => hreset }

theorem inReset_resetOf (c : Config) (d : Nat) : inReset (State.resetOf c d) :=
  ⟨rfl, rfl, rfl, rfl, rfl, rfl, rfl, rfl, rfl, rfl, rfl, rfl, rfl, rfl, fun _ => phase_of_mem_resetWorkers, rfl⟩

theorem inv_resetOf {c : Config} (h : c.wf = true) (d : Nat) : Inv (State.resetOf c d) :=
  inv_of_inReset h (length_resetWorkers c d) (inReset_resetOf c d)

/-- Settles O50: the reference parameters are legal. -/
theorem invariantHoldsAtReset : Obligations.InvariantHoldsAtReset :=
  ⟨fun _ d h => inv_resetOf h d, inv_resetOf (by decide) 0⟩

theorem inv_hardReset {s : State} (h : s.cfg.wf = true) : Inv (hardReset s) :=
  inv_of_inReset h (length_resetWorkers _ _) (inReset_hardReset s)

/-! ### The model's own fields -/

/-- The invariant does not speak of the HOST agent, the count of draws or the order of the moves. -/
theorem inv_setModelFields {s : State} (h : Inv s) (host : HostAgent) (draws turn : Nat) (grant : Agent) :
    Inv { s with host := host, draws := draws, turn := turn, grant := grant } := { h with }

theorem inv_regrant {s : State} (h : Inv s) : Inv (regrant s) := { h with }

/-! ### The host's writes and the reset input -/

theorem phase_idle_of_not_busy {s : State} (h : Inv s) (hb : s.status.busy = false) : s.phase = .idle := by
  by_contra hp
  simp [h.busyIff.2 hp] at hb

/-- While a command runs `rst` is released: the reset state is idle. -/
theorem rst_false_of_running {s : State} (h : Inv s) (hp : s.phase ≠ .idle) : s.rst = false := by
  by_contra hr
  obtain ⟨-, -, -, -, -, -, -, -, -, -, -, -, -, hidle, -⟩ := h.held (by simpa using hr)
  exact hp hidle

/-- What the write of an operand or of RAM may change in an idle core. -/
theorem inv_setInputs {s : State} (h : Inv s) (hr : s.rst = false) (hp : s.phase = .idle)
    (key din textLen pairCount workersReq : Word) {m : List Host.Cell} (hwf : Memory.wf m)
    (hmapped : ∀ x ∈ m, inRam s.cfg x.1) :
    Inv { s with
      key := key, din := din, textLen := textLen, pairCount := pairCount, workersReq := workersReq, ram := m } :=
  { h with
    ramWf := hwf
    ramMapped := hmapped
    searching := by simp [hp]
    held := by simp [hr] }

theorem inv_accept {s : State} (h : Inv s) (hr : s.rst = false) (hp : s.phase = .idle) (c : Word) :
    Inv (accept c s) :=
  have hidle := h.workersIdle (by simp [hp])
  { h with
    busyIff := by simp [Status.accept]
    busyClear := by simp [Status.accept]
    errInfoKind := by simp [Status.accept]
    noProgrammingError := by simpa [Status.accept] using h.noProgrammingError.right
    workersIdle := fun _ => hidle
    searching := by simp
    held := by simp [hr] }

theorem inv_softReset {s : State} (h : Inv s) (hr : s.rst = false) : Inv (softReset s) :=
  { inv_hardReset h.cfgWf with
    ramWf := h.ramWf
    ramMapped := h.ramMapped
    searching := by simp
    held := by simp [hr] }

theorem inv_clear {s : State} (h : Inv s) (hr : s.rst = false) (v : Word) :
    Inv { s with status := s.status.clear v } :=
  { h with
    busyClear := fun hb => by
      obtain ⟨hdone, herr⟩ := h.busyClear hb
      exact ⟨(clear_done_of_not_done hdone v).trans hdone, herr⟩
    held := by simp [hr] }

theorem inv_setCtrlDropped {s : State} (h : Inv s) (hr : s.rst = false) (c : Ctrl) (d : Bool) :
    Inv { s with ctrl := c, status := { s.status with dropped := d } } :=
  { h with held := by simp [hr] }

/-- A write keeps the invariant; while `rst` is asserted none has an effect, so it is released here. -/
theorem inv_of_writeEffect {s t : State} {v : Word} (h : Inv s) (hr : s.rst = false) (hw : WriteEffect s v t) :
    Inv t := by
  cases hw with
  | ignored => exact h
  | dropped => exact inv_setCtrlDropped h hr s.ctrl true
  | ctrl => exact inv_setCtrlDropped h hr _ s.status.dropped
  | ctrlDropped => exact inv_setCtrlDropped h hr _ true
  | softReset => exact inv_softReset h hr
  | accept hb => exact inv_accept h hr (phase_idle_of_not_busy h hb) v
  | status => exact inv_clear h hr v
  | operands key din textLen pairCount workersReq hb =>
    exact inv_setInputs h hr (phase_idle_of_not_busy h hb) key din textLen pairCount workersReq h.ramWf h.ramMapped
  | ram a hb hin =>
    refine inv_setInputs h hr (phase_idle_of_not_busy h hb) s.key s.din s.textLen s.pairCount s.workersReq
      (setWord_wf h.ramWf a v) fun x hx => ?_
    rcases mem_setWord hx with ⟨hlow, hhigh⟩ | hx
    · exact hin _ hlow hhigh
    · exact h.ramMapped x hx

theorem inv_of_hostStmt {s t : State} {st : HostStmt} (h : Inv s) (hst : hostStmt s st = .next t) : Inv t := by
  obtain ⟨ha, rfl⟩ | ⟨ha, rfl⟩ | ⟨v, u, ha, hw, hheld, rfl⟩ | ⟨asserted, ha, -, -, rfl⟩ := hostStmt_cases hst
  · exact inv_setModelFields h ha s.draws s.turn s.grant
  · exact inv_setModelFields h ha (s.draws + 1) s.turn s.grant
  · have hu : Inv u := by
      cases hr : s.rst with
      | true => exact hheld hr ▸ h
      | false => exact inv_of_writeEffect h hr hw
    exact inv_setModelFields hu ha u.draws u.turn u.grant
  · exact { inv_hardReset h.cfgWf with held := fun _ => inReset_hardReset s }

/-! ### The sequencer -/

/-- What a commit asks of the state that holds the command's outputs: the invariant's clauses on what the commit does
not write, with every worker back at rest. -/
structure ReadyToCommit (s : State) : Prop where
  cfgWf : s.cfg.wf = true
  ramWf : Memory.wf s.ram
  ramMapped : ∀ x ∈ s.ram, inRam s.cfg x.1
  workerCount : s.workers.length = s.cfg.nw
  lockFree : s.lock = .free
  workersIdle : ∀ x ∈ s.workers, x.phase = .idle
  released : s.rst = false

theorem inv_commitError {s : State} {e : CommandError} (h : ReadyToCommit s) (he : e.1.kind ≠ .programmingError) :
    Inv (commitError e s) where
  cfgWf := h.cfgWf
  ramWf := h.ramWf
  ramMapped := h.ramMapped
  busyIff := by simp [Status.commit]
  busyClear := by simp [Status.commit]
  errInfoKind := fun _ => rfl
  noProgrammingError := ⟨he, fun htable => he (congrArg SubCause.kind htable)⟩
  workerCount := h.workerCount
  lockFree := h.lockFree
  workersIdle := fun _ => h.workersIdle
  searching := by simp
  held := by simp [h.released]

/-- The successful commit records sub-cause 0 as an error commit would (R112, R113). -/
theorem commitOk_eq_commitError (s : State) : commitOk s = commitError (.noError, 0) s := rfl

theorem inv_commitOk {s : State} (h : ReadyToCommit s) : Inv (commitOk s) := by
  rw [commitOk_eq_commitError]
  exact inv_commitError h (by simp [SubCause.kind])

theorem readyToCommit_of_exec {s : State} (h : Inv s) (hp : s.phase = .exec) : ReadyToCommit s :=
  { h with
    workersIdle := h.workersIdle (by simp [hp])
    released := rst_false_of_running h (by simp [hp]) }

/-- A text command writes TEXT_OUT entries of the core only: TEXT_LEN has been checked (R208). -/
theorem readyToCommit_writeUnits {s : State} (h : ReadyToCommit s) (hlen : s.textLen.toNat ≤ s.cfg.textDepth)
    (cipher : Byte → MasterKey → Byte) :
    ReadyToCommit { s with ram := writeUnits cipher s s.textLen.toNat } :=
  { h with
    ramWf := writeUnits_wf cipher s _ h.ramWf
    ramMapped := fun x hx => by
      rcases mem_writeUnits hx with ⟨i, hi, hxi⟩ | hx
      · rw [hxi]
        exact .inr (.inr (by simp only [textOutOff]; omega))
      · exact h.ramMapped x hx }

theorem inv_launch {s : State} (h : Inv s) (hp : s.phase = .exec) (herr : searchError s = none) : Inv (launch s) :=
  have hidle := h.workersIdle (by simp [hp])
  { h with
    busyIff := by simp [h.busyIff, hp]
    workerCount := by simp [h.workerCount]
    lockFree := rfl
    workersIdle := fun hn => absurd rfl hn
    searching := fun _ => ⟨herr, searchOk_launch hidle⟩
    held := by simp [rst_false_of_running h (by simp [hp])] }

theorem inv_of_exec {s t : State} {i : Instr} (h : Inv s) (hp : s.phase = .exec) (hexec : exec i s = .next t) :
    Inv t := by
  have hready := readyToCommit_of_exec h hp
  obtain ⟨e, he, rfl⟩ | ⟨b, -, -, rfl⟩ | ⟨f, -, herr, rfl⟩ | ⟨-, herr, rfl⟩ := exec_cases hexec
  · exact inv_commitError hready (by simp [commandError_kind he])
  · exact inv_commitOk { hready with }
  · obtain ⟨hlen, -⟩ := textError_eq_none_iff.1 herr
    exact inv_commitOk (readyToCommit_writeUnits hready hlen f)
  · exact inv_launch h hp herr

theorem inv_join {s : State} (h : Inv s) (hp : s.phase = .searchRun) : Inv (join s) := by
  obtain ⟨-, hok⟩ := h.searching hp
  have hreleased : s.rst = false := rst_false_of_running h (by simp [hp])
  exact inv_commitOk { h with
    workerCount := by simp [h.workerCount]
    workersIdle := join_workers_idle hok
    released := hreleased }

theorem inv_of_seqMove {s t : State} (h : Inv s) (hmove : seqMove s = some (.next t)) : Inv t := by
  obtain ⟨i, hp, -, ht⟩ | ⟨why, hp, -, ht⟩ | ⟨hp, -, ht⟩ := seqMove_cases hmove
  · exact inv_of_exec h hp ht.symm
  · obtain rfl := Host.Outcome.next.inj ht
    exact inv_commitError (readyToCommit_of_exec h hp) (by cases why <;> simp [illegalSubCause, SubCause.kind])
  · obtain rfl := Host.Outcome.next.inj ht
    exact inv_join h hp

/-! ### The workers -/

/-- A worker's move replaces that worker and leaves LOCK FREE if it was. -/
theorem workerMove_workers {s t : State} {w : Nat} (h : workerMove w s = some t) :
    t.workers.length = s.workers.length ∧ (s.lock = .free → t.lock = .free) := by
  obtain ⟨x, -, ⟨-, -, rfl⟩ | ⟨-, -, rfl⟩ | ⟨-, -, rfl⟩⟩ := workerMove_cases h
  · exact ⟨by simp, id⟩
  · exact ⟨by simp, id⟩
  · exact ⟨by simp, fun _ => rfl⟩

/-- Only a SEARCH's workers move. -/
theorem searchRun_of_workerMove {s t : State} {w : Nat} (h : Inv s) (hmove : workerMove w s = some t) :
    s.phase = .searchRun := by
  by_contra hp
  rw [workerMove_of_idle (h.workersIdle hp)] at hmove
  cases hmove

theorem inv_of_workerMove {s t : State} {w : Nat} (h : Inv s) (hmove : workerMove w s = some t) : Inv t := by
  have hp := searchRun_of_workerMove h hmove
  obtain ⟨herr, hok⟩ := h.searching hp
  obtain ⟨hcount, hlock⟩ := workerMove_workers hmove
  have hok' := searchOk_of_workerMove hok hmove
  rw [workerMove_frame hmove] at hok' ⊢
  exact { h with
    workerCount := hcount.trans h.workerCount
    lockFree := hlock h.lockFree
    workersIdle := fun hn => absurd hp hn
    searching := fun _ => ⟨herr, hok'⟩
    held := by simp [rst_false_of_running h (by simp [hp])] }

/-! ### Every agent -/

theorem inv_of_agentMove {a : Agent} {s t : State} (h : Inv s) (hmove : agentMove a s = some (.next t)) : Inv t := by
  obtain ⟨-, st, -, hst⟩ | ⟨-, hseq⟩ | ⟨w, -, hworker⟩ := agentMove_next hmove
  · exact inv_of_hostStmt h hst
  · exact inv_of_seqMove h hseq
  · exact inv_of_workerMove h hworker

theorem inv_of_step {s t : State} (h : Inv s) (hstep : step s = .next t) : Inv t := by
  obtain rfl | ⟨a, u, -, hmove, rfl⟩ := step_cases hstep
  · exact h
  · exact inv_regrant (inv_of_agentMove h hmove)

/-- Settles O51: the host's statements, the sequencer's move and the workers' moves each keep the invariant, and a step
is one of them with the offer of the next. -/
theorem everyMoveKeepsTheInvariant : Obligations.EveryMoveKeepsTheInvariant :=
  ⟨fun _ _ _ => inv_of_agentMove, fun _ _ => inv_of_step⟩

end Sys2Proof.Machine
end

section
/-! PROOFS. The address map (20_memory.md R71) both ways, and the accesses that reach no location (R73, R74). -/

namespace Sys2Proof.Machine

theorem mem_of_cellGet {α : Type} {m : List (Nat × α)} {a : Nat} {x : α} (h : cellGet m a = some x) : (a, x) ∈ m := by
  induction m with
  | nil => cases h
  | cons y r ih =>
    obtain ⟨k, v⟩ := y
    rw [cellGet] at h
    split at h
    · rename_i hk
      rw [hk, Option.some.inj h]
      exact List.mem_cons_self
    · exact List.mem_cons_of_mem _ (ih h)

theorem offset_of_registerMap {off : Nat} {l : Loc} (h : cellGet registerMap off = some l) : l.offset = off := by
  have hall : ∀ y ∈ registerMap, y.2.offset = y.1 := by decide
  exact hall _ (mem_of_cellGet h)

/-- The location found at a word offset is the one that stands there. -/
theorem offset_of_locate {c : Config} {off : Nat} {l : Loc} (halign : off % 4 = 0) (h : locate c off = some l) :
    l.offset = off := by
  unfold locate at h
  simp only [Option.or_eq_some_iff, Option.map_eq_some_iff, windowIndex_eq_some (by decide : 0 < 4),
    pairLoc_eq_some] at h
  obtain h | ⟨-, h⟩ := h
  · exact offset_of_registerMap h
  obtain ⟨i, -, ⟨rfl, hlow, hhigh⟩ | ⟨rfl, hlow, hhigh⟩⟩ | ⟨-, h⟩ := h
  · simp only [Loc.offset, pairPtOff] at *; omega
  · simp only [Loc.offset, pairCtOff] at *; omega
  obtain ⟨i, ⟨-, hlow, hhigh⟩, rfl⟩ | ⟨-, h⟩ := h
  · simp only [Loc.offset, matchKeyOff]; omega
  obtain ⟨i, ⟨-, hlow, hhigh⟩, rfl⟩ | ⟨-, h⟩ := h
  · simp only [Loc.offset, matchMapOff]; omega
  obtain ⟨i, ⟨-, hlow, hhigh⟩, rfl⟩ | ⟨-, i, ⟨-, hlow, hhigh⟩, rfl⟩ := h
  · simp only [Loc.offset, textInOff]; omega
  · simp only [Loc.offset, textOutOff]; omega

/-- Settles O10: the windows do not overlap, and each holds its entries in order. -/
theorem addressMapRoundTrip : Obligations.AddressMapRoundTrip := fun _ hc =>
  ⟨fun _ hl => ⟨locate_offset hc hl, offset_aligned_lt hc hl⟩,
    fun _ _ halign h => ⟨locate_present h, offset_of_locate halign h⟩⟩

/-! ### Bus errors -/

/-- A legal access is a word access at the address of the location it reaches (R72). -/
theorem target_eq_some {c : Config} {size addr : Nat} {l : Loc} (hc : c.wf = true) (h : target c size addr = some l) :
    size = 4 ∧ addr % 4 = 0 ∧ l.present c = true ∧ addr = c.base + l.offset := by
  obtain ⟨-, -, hbase⟩ := wf_bounds hc
  have hl := target_present h
  unfold target at h
  split at h
  · rename_i hlegal
    obtain ⟨hsize, halign, hlow, -⟩ := hlegal
    have hoff := offset_of_locate (by omega) h
    exact ⟨hsize, halign, hl, by omega⟩
  · cases h

theorem target_eq_none {c : Config} {size addr : Nat} (hc : c.wf = true)
    (h : size ≠ 4 ∨ addr % 4 ≠ 0 ∨ ∀ l : Loc, l.present c = true → addr ≠ c.base + l.offset) :
    target c size addr = none := by
  by_contra hsome
  obtain ⟨l, hl⟩ := Option.ne_none_iff_exists'.1 hsome
  obtain ⟨hsize, halign, hpresent, haddr⟩ := target_eq_some hc hl
  obtain h | h | h := h
  · exact h hsize
  · exact h halign
  · exact h l hpresent haddr

/-- Past its window's depth a name stands for no address (log 27), so the access is never made. -/
theorem hostAccess_named_absent {s : State} {l : Loc} (h : l.present s.cfg = false) (access : Nat → State) :
    hostAccess s ((HostLoc.named l).address s.cfg) access = { s with host := s.host.answer .busError } := by
  rw [HostLoc.address, if_neg (by simp [h]), hostAccess]

/-- Settles O11: an illegal access has no target, and an absent entry has no address. -/
theorem busErrorsChangeNothing : Obligations.BusErrorsChangeNothing := by
  refine ⟨fun s size addr v hc h => ?_, fun s l imm name hl => ?_⟩
  · have htarget := target_eq_none hc h
    exact ⟨by rw [memRead, htarget], by rw [memWrite, htarget]⟩
  · exact ⟨congrArg Host.Outcome.next (hostAccess_named_absent hl _),
      congrArg Host.Outcome.next (hostAccess_named_absent hl _)⟩

end Sys2Proof.Machine
end

section
/-! PROOFS. Reads (20_memory.md R76, R77) and what each register reads; operand writes read back (10_state.md R29 to
R39). -/

namespace Sys2Proof.Machine

/-! ### Reads -/

/-- A word read at a location's own address is the legal read of that location (R72). -/
theorem memRead_offset {s : State} {l : Loc} (hc : s.cfg.wf = true) (hl : l.present s.cfg = true) :
    memRead s 4 (s.cfg.base + l.offset) = (.data (readAccess s l).1, (readAccess s l).2) := by
  rw [memRead, target_offset hc hl]

theorem readAccess_of_specified {s : State} {l : Loc} (h : s.status.busy = false ∨ isOutput l = false) :
    readAccess s l = (readLoc s l, s) := by
  rw [readAccess, if_neg (by simpa [Decidable.imp_iff_not_or] using h)]

theorem readAccess_of_unspecified {s : State} {l : Loc} (hb : s.status.busy = true) (ho : isOutput l = true) :
    readAccess s l = (Config.freeWord s.draws, { s with draws := s.draws + 1 }) := by
  rw [readAccess, if_pos (by simp [hb, ho])]

theorem nw_le_of_wf {c : Config} (h : c.wf = true) : c.nw ≤ 1024 := by
  simp only [Config.wf, Bool.and_eq_true, decide_eq_true_eq] at h
  omega

/-- The capability registers are wide enough for every legal parameter (00_scope.md R7). -/
theorem readLoc_caps {s : State} (h : s.cfg.wf = true) :
    (readLoc s .capNw).toNat = s.cfg.nw ∧ (readLoc s .capPairDepth).toNat = s.cfg.pairDepth ∧
      (readLoc s .capTextDepth).toNat = s.cfg.textDepth := by
  have hnw := nw_le_of_wf h
  obtain ⟨hpair, htext, -⟩ := wf_bounds h
  simp only [readLoc, BitVec.toNat_ofNat]
  omega

/-- A byte register reads 0 in bits 31:8 (R31, R40). -/
theorem setWidth_byte_eq_append (b : Byte) : (b.setWidth 32 : Word) = (0 : BitVec 24) ++ b :=
  BitVec.setWidth_eq_append (by decide)

/-- Settles O12: a read of an output location while BUSY = 1 is a draw; any other answers what the location holds. -/
theorem readsHaveNoSideEffects : Obligations.ReadsHaveNoSideEffects := by
  refine ⟨fun s l hc hl => ⟨fun h => ?_, fun hb ho => ⟨Config.freeWord s.draws, ?_⟩⟩, fun s hc => ?_⟩
  · rw [memRead_offset hc hl, readAccess_of_specified h]
  · rw [memRead_offset hc hl, readAccess_of_unspecified hb ho]
  · exact ⟨readLoc_caps hc, ⟨rfl, rfl, rfl, rfl⟩, ⟨rfl, rfl, rfl, rfl, rfl⟩,
      ⟨setWidth_byte_eq_append s.dout, rfl, rfl⟩, fun _ => setWidth_byte_eq_append _⟩

/-! ### Operand writes -/

/-- Two locations of a core are at least a word apart: both are word aligned, and no two stand at one offset. -/
theorem offset_apart {c : Config} {l l' : Loc} (hc : c.wf = true) (hl : l.present c = true) (hl' : l'.present c = true)
    (hne : l' ≠ l) : l'.offset + 4 ≤ l.offset ∨ l.offset + 4 ≤ l'.offset := by
  have hoff : l'.offset ≠ l.offset := fun heq => by
    have hfound := locate_offset hc hl'
    rw [heq, locate_offset hc hl] at hfound
    exact hne (Option.some.inj hfound).symm
  obtain ⟨halign, -⟩ := offset_aligned_lt hc hl
  obtain ⟨halign', -⟩ := offset_aligned_lt hc hl'
  omega

/-- A word written to the RAM shows at no location that is apart from it. -/
theorem readLoc_setWord_of_apart {s : State} {a : Nat} {l : Loc} (v : Word) (h : l.offset + 4 ≤ a ∨ a + 4 ≤ l.offset) :
    readLoc { s with ram := setWord s.ram a v } l = readLoc s l := by
  cases l with
  | pairPt i | pairCt i | textIn i => exact ramWord_setWord_of_apart s v h
  | textOut i =>
    have hbyte : textOut { s with ram := setWord s.ram a v } i = textOut s i := by
      refine ramByte_setWord_of_outside s v ?_
      simp only [Loc.offset] at h
      omega
    simp only [readLoc, hbyte]
  | _ => rfl

theorem readLoc_writeLoc_same {l : Loc} (h : operandLoc l) (s : State) (v : Word) :
    readLoc (writeLoc s v l) l = v := by
  cases l with
  | key | din | textLen | pairCount | workers => rfl
  | pairPt i | pairCt i | textIn i => exact ramWord_setWord s _ v
  | _ => exact h.elim

theorem readLoc_writeLoc_other {s : State} {l l' : Loc} (hc : s.cfg.wf = true) (hl : l.present s.cfg = true)
    (hl' : l'.present s.cfg = true) (hne : l' ≠ l) (h : operandLoc l) (v : Word) :
    readLoc (writeLoc s v l) l' = readLoc s l' := by
  cases l with
  | key =>
    cases l' with
    | key => exact absurd rfl hne
    | _ => rfl
  | din =>
    cases l' with
    | din => exact absurd rfl hne
    | _ => rfl
  | textLen =>
    cases l' with
    | textLen => exact absurd rfl hne
    | _ => rfl
  | pairCount =>
    cases l' with
    | pairCount => exact absurd rfl hne
    | _ => rfl
  | workers =>
    cases l' with
    | workers => exact absurd rfl hne
    | _ => rfl
  | pairPt i | pairCt i | textIn i => exact readLoc_setWord_of_apart v (offset_apart hc hl hl' hne)
  | _ => exact h.elim

/-- An operand write sets an operand register or the RAM, and no other field of the state. -/
theorem writeLoc_operand_frame {l : Loc} (h : operandLoc l) (s : State) (v : Word) :
    ∃ key din textLen pairCount workersReq ram, writeLoc s v l =
      { s with
        key := key, din := din, textLen := textLen, pairCount := pairCount, workersReq := workersReq, ram := ram } := by
  cases l with
  | key | din | textLen | pairCount | workers | pairPt _ | pairCt _ | textIn _ => exact ⟨_, _, _, _, _, _, rfl⟩
  | _ => exact h.elim

/-- Settles O14: an idle core performs the write, and locations do not overlap. -/
theorem operandWritesReadBack : Obligations.OperandWritesReadBack := by
  intro s l v hc hl hop hr hb
  refine ⟨writeLoc s v l, memWrite_of_idle hc hl hr hb v, readLoc_writeLoc_same hop s v,
    fun l' hl' hne => readLoc_writeLoc_other hc hl hl' hne hop v, ?_⟩
  obtain ⟨_, _, _, _, _, _, hframe⟩ := writeLoc_operand_frame hop s v
  rw [hframe]
  exact ⟨rfl, rfl, ⟨rfl, rfl, rfl⟩, rfl, rfl, rfl, rfl, rfl, rfl, rfl, rfl, rfl, rfl, rfl⟩

end Sys2Proof.Machine
end

section
/-! PROOFS. The words that STATUS and ERR_INFO read (10_state.md R26, R28), the numbers of the errors (60_exceptions.md
R270, R271), and the views of the candidate set (10_state.md R36, R41, R42). -/

namespace Sys2Proof.Machine

/-! ### STATUS and ERR_INFO -/

theorem err_eq (st : Status) : st.err = decide (st.errCode ≠ .none) := by
  cases h : st.errCode <;> simp [Status.err, h, ErrKind.code]

theorem statusWord_flags (st : Status) :
    st.word.getLsbD 0 = st.busy ∧ st.word.getLsbD 1 = st.done ∧ st.word.getLsbD 2 = st.err ∧
      st.word.getLsbD 3 = st.dropped := by
  rw [Status.word]
  simp only [BitVec.getLsbD_append]
  simp

/-- Above the four flags a field of STATUS is read from the three upper fields alone. -/
theorem extractLsb'_statusWord (st : Status) {start len : Nat} (h : 4 ≤ start) :
    st.word.extractLsb' start len =
      ((0 : BitVec 20) ++ st.lastOp ++ st.errCode.code).extractLsb' (start - 4) len := by
  rw [Status.word]
  iterate 4 rw [BitVec.extractLsb'_append_eq_of_le (by omega)]
  congr 1

/-- Settles O16: each field stands where the concatenation puts it. -/
theorem statusWordLayout : Obligations.StatusWordLayout := by
  intro st
  obtain ⟨hbusy, hdone, herr, hdropped⟩ := statusWord_flags st
  refine ⟨hbusy, hdone, herr.trans (err_eq st), hdropped, ?errCode, ?lastOp, ?reserved, rfl, rfl, rfl, rfl⟩
  case errCode =>
    rw [extractLsb'_statusWord st (by decide)]
    exact BitVec.extractLsb'_append_eq_right
  case lastOp =>
    rw [extractLsb'_statusWord st (by decide), BitVec.extractLsb'_append_eq_of_le (by decide)]
    exact BitVec.extractLsb'_append_eq_right
  case reserved =>
    rw [extractLsb'_statusWord st (by decide), BitVec.append_assoc]
    exact BitVec.extractLsb'_append_eq_left

theorem errInfoWord_fields (e : ErrInfo) :
    e.word.extractLsb' 0 8 = e.subcause.code ∧ e.word.extractLsb' 8 8 = 0 ∧ e.word.extractLsb' 16 16 = e.index := by
  rw [ErrInfo.word]
  refine ⟨BitVec.extractLsb'_append_eq_right, ?reserved, ?index⟩
  case reserved =>
    rw [BitVec.extractLsb'_append_eq_of_le (by decide)]
    exact BitVec.extractLsb'_append_eq_right
  case index =>
    rw [BitVec.append_assoc]
    exact BitVec.extractLsb'_append_eq_left

/-- Settles O45: the numbers and kinds are the two tables', and each field of ERR_INFO stands where the concatenation
puts it. -/
theorem subCausesAreNumbered : Obligations.SubCausesAreNumbered := ⟨by decide, errInfoWord_fields⟩

/-! ### MATCH_COUNT, MATCH_KEY and MATCH_MAP -/

theorem matchCount_eq_length (m : KeySet) : matchCount m = (keysOf m).length := List.countP_eq_length_filter

theorem matchCount_le (m : KeySet) : matchCount m ≤ 1024 := by
  rw [matchCount]
  exact List.countP_le_length.trans_eq List.length_range

/-- Of the numbers below `n` that pass `p`, in ascending order, the one at place `j` has exactly `j` before it. -/
theorem countP_range_getElem_filter_range (p : Nat → Bool) {n j : Nat} (h : j < ((List.range n).filter p).length) :
    (List.range ((List.range n).filter p)[j]).countP p = j := by
  induction n with
  | zero => simp at h
  | succ n ih =>
    simp only [List.range_succ, List.filter_append] at h ⊢
    rcases Nat.lt_or_ge j ((List.range n).filter p).length with hlt | hge
    · simp only [List.getElem_append_left hlt]
      exact ih hlt
    · cases hp : p n with
      | false => simp [hp] at h; omega
      | true =>
        have hj : j = ((List.range n).filter p).length := by simp [hp] at h; omega
        simp [hj, hp, List.countP_eq_length_filter]

/-- MATCH_KEY[j] for j < MATCH_COUNT is the entry at place `j` of the set's keys in ascending order (R42). -/
theorem matchKey_eq_getElem {m : KeySet} {j : Nat} (h : j < (keysOf m).length) : matchKey m j = (keysOf m)[j] := by
  rw [matchKey, if_pos (matchCount_eq_length m ▸ h), List.getD_eq_getElem _ _ h]

theorem mem_keysOf {m : KeySet} {k : Nat} : k ∈ keysOf m ↔ k < 1024 ∧ m.getLsbD k = true := by
  simp [keysOf]

theorem matchKey_of_lt {m : KeySet} {j : Nat} (h : j < matchCount m) :
    matchKey m j < 1024 ∧ m.getLsbD (matchKey m j) = true ∧
      ((List.range (matchKey m j)).countP fun k => m.getLsbD k) = j := by
  rw [matchCount_eq_length] at h
  obtain ⟨hlt, hbit⟩ := mem_keysOf.1 (List.getElem_mem h)
  rw [matchKey_eq_getElem h]
  exact ⟨hlt, hbit, countP_range_getElem_filter_range _ h⟩

theorem matchKey_of_ge {m : KeySet} {j : Nat} (h : matchCount m ≤ j) : matchKey m j = 0 :=
  if_neg (Nat.not_lt.2 h)

theorem matchKey_lt (m : KeySet) (j : Nat) : matchKey m j < 1024 := by
  rcases Nat.lt_or_ge j (matchCount m) with h | h
  · obtain ⟨hlt, -⟩ := matchKey_of_lt h
    exact hlt
  · rw [matchKey_of_ge h]
    decide

theorem getLsbD_matchMapWord (m : KeySet) (w : Nat) {b : Nat} (hb : b < 32) :
    (matchMapWord m w).getLsbD b = m.getLsbD (32 * w + b) := by
  rw [matchMapWord, BitVec.getLsbD_extractLsb']
  simp [hb]

/-- Settles O18: MATCH_KEY indexes the sorted keys of the set, and both numbers fit their 32-bit location. -/
theorem matchViewsListTheSetInOrder : Obligations.MatchViewsListTheSetInOrder := by
  refine ⟨fun m => ⟨matchCount_eq_length m, matchCount_le m, fun j => matchKey_of_lt, fun j => matchKey_of_ge,
    fun w b _ hb => getLsbD_matchMapWord m w hb⟩, fun s => ⟨?_, fun j => ?_, fun w => rfl⟩⟩
  · have hle := matchCount_le s.matchMap
    exact (BitVec.toNat_ofNat _ _).trans (Nat.mod_eq_of_lt (by omega))
  · have hlt := matchKey_lt s.matchMap j
    exact (BitVec.toNat_ofNat _ _).trans (Nat.mod_eq_of_lt (by omega))

end Sys2Proof.Machine
end

section
/-! PROOFS. What every command's sequencer step answers, leaves unchanged (30_encoding.md R104, R111), and the text
commands unit by unit (43_block_cipher.md R211). -/

namespace Sys2Proof.Machine

/-! ### The answer -/

theorem exists_exec_next (i : Instr) (s : State) : ∃ t, exec i s = .next t := by
  cases i with
  | encBlock | decBlock | encText | decText | search => exact ⟨_, rfl⟩

/-- A sequencer step that is not a launch is a commit. -/
theorem committed_of_exec {i : Instr} {s t : State} (hi : i ≠ .search) (h : exec i s = .next t) :
    t.status.busy = false ∧ t.status.done = true ∧ t.phase = .idle := by
  obtain ⟨e, -, rfl⟩ | ⟨b, -, -, rfl⟩ | ⟨f, -, -, rfl⟩ | ⟨hsearch, -, -⟩ := exec_cases h
  · exact ⟨rfl, rfl, rfl⟩
  · exact ⟨rfl, rfl, rfl⟩
  · exact ⟨rfl, rfl, rfl⟩
  · exact absurd hsearch hi

/-- Settles O22: no arm of `exec` answers a fault or a refusal. -/
theorem everyCommandAnswersANextState : Obligations.EveryCommandAnswersANextState := by
  intro i s
  obtain ⟨t, ht⟩ := exists_exec_next i s
  exact ⟨t, ht, fun hi => committed_of_exec hi ht⟩

/-! ### Text block by block -/

/-- A unit and a key that pass the text commands' checks pass the block commands'. -/
theorem blockError_textIn {s : State} {i : Nat} (h : textError s = none) (hi : i < s.textLen.toNat) :
    blockError { s with din := textIn s i } = none := by
  obtain ⟨-, hunits, hkey⟩ := textError_eq_none_iff.1 h
  exact blockError_eq_none_iff.2 ⟨hunits i hi, hkey⟩

/-- R211 for the two shared rules with one cipher. -/
theorem blockCommand_textIn {s : State} {i : Nat} (h : textError s = none) (hi : i < s.textLen.toNat)
    (cipher : Byte → MasterKey → Byte) :
    (blockCommand cipher { s with din := textIn s i }).status.errCode = .none ∧
    (blockCommand cipher { s with din := textIn s i }).dout = textOut (textCommand cipher s) i := by
  rw [textOut_textCommand h cipher hi, blockCommand_of_no_error (blockError_textIn h hi)]
  exact ⟨rfl, rfl⟩

/-- Settles O29: the two commands of a direction are their shared rules with the same cipher. -/
theorem textIsBlockByBlock : Obligations.TextIsBlockByBlock := by
  refine fun s t i herr hi => ⟨fun h => ?_, fun h => ?_⟩
  · obtain rfl : textCommand encrypt8 s = t := Host.Outcome.next.inj h
    exact ⟨_, rfl, blockCommand_textIn herr hi encrypt8⟩
  · obtain rfl : textCommand decrypt8 s = t := Host.Outcome.next.inj h
    exact ⟨_, rfl, blockCommand_textIn herr hi decrypt8⟩

/-! ### Frames -/

/-- What no command's sequencer step changes: the fields of O30's first and third clauses. -/
def CommandKeeps (s t : State) : Prop :=
  (t.cfg = s.cfg ∧ t.ctrl = s.ctrl ∧ t.key = s.key ∧ t.din = s.din ∧ t.textLen = s.textLen ∧
    t.pairCount = s.pairCount ∧ t.workersReq = s.workersReq ∧ t.ramEpoch = s.ramEpoch ∧ t.op = s.op ∧
    t.host = s.host ∧ t.status.dropped = s.status.dropped ∧ t.status.lastOp = s.status.lastOp) ∧
  (t.matchMap = s.matchMap ∧ t.workersEff = s.workersEff ∧ t.elapsed = s.elapsed ∧ t.draws = s.draws)

theorem commandKeeps_of_exec {i : Instr} {s t : State} (h : exec i s = .next t) : CommandKeeps s t := by
  have hrefl : CommandKeeps s s :=
    ⟨⟨rfl, rfl, rfl, rfl, rfl, rfl, rfl, rfl, rfl, rfl, rfl, rfl⟩, rfl, rfl, rfl, rfl⟩
  obtain ⟨e, -, rfl⟩ | ⟨b, -, -, rfl⟩ | ⟨f, -, -, rfl⟩ | ⟨-, -, rfl⟩ := exec_cases h
  · exact hrefl
  · exact hrefl
  · exact hrefl
  · exact hrefl

theorem dout_of_exec {i : Instr} {s t : State} (henc : i ≠ .encBlock) (hdec : i ≠ .decBlock) (h : exec i s = .next t) :
    t.dout = s.dout := by
  obtain ⟨e, -, rfl⟩ | ⟨b, rfl | rfl, -, rfl⟩ | ⟨f, -, -, rfl⟩ | ⟨-, -, rfl⟩ := exec_cases h
  · rfl
  · exact absurd rfl henc
  · exact absurd rfl hdec
  · rfl
  · rfl

theorem ram_of_exec {i : Instr} {s t : State} (henc : i ≠ .encText) (hdec : i ≠ .decText) (h : exec i s = .next t) :
    t.ram = s.ram := by
  obtain ⟨e, -, rfl⟩ | ⟨b, -, -, rfl⟩ | ⟨f, rfl | rfl, -, rfl⟩ | ⟨-, -, rfl⟩ := exec_cases h
  · rfl
  · rfl
  · exact absurd rfl henc
  · exact absurd rfl hdec
  · rfl

theorem progress_of_exec {i : Instr} {s t : State} (hi : i ≠ .search) (h : exec i s = .next t) : sameProgress s t := by
  obtain ⟨e, -, rfl⟩ | ⟨b, -, -, rfl⟩ | ⟨f, -, -, rfl⟩ | ⟨hsearch, -, -⟩ := exec_cases h
  · exact ⟨rfl, rfl, rfl⟩
  · exact ⟨rfl, rfl, rfl⟩
  · exact ⟨rfl, rfl, rfl⟩
  · exact absurd hsearch hi

/-- No command writes a byte outside the core's TEXT_OUT entries: a text command has checked TEXT_LEN. -/
theorem ramByte_of_exec {i : Instr} {s t : State} (h : exec i s = .next t) {a : Nat}
    (ha : ∀ j < s.cfg.textDepth, a ≠ textOutOff j) : ramByte t a = ramByte s a := by
  obtain ⟨e, -, rfl⟩ | ⟨b, -, -, rfl⟩ | ⟨f, -, herr, rfl⟩ | ⟨-, -, rfl⟩ := exec_cases h
  · rfl
  · rfl
  · obtain ⟨hlen, -⟩ := textError_eq_none_iff.1 herr
    exact ramByte_writeUnits f s (commitOk { s with ram := writeUnits f s s.textLen.toNat }) _ rfl rfl a
      fun j hj => ha j (by omega)
  · rfl

theorem ramWord_of_exec {i : Instr} {s t : State} (h : exec i s = .next t) {a : Nat}
    (ha : ∀ j < s.cfg.textDepth, ∀ b < 4, a + b ≠ textOutOff j) : ramWord t a = ramWord s a := by
  have hbyte : ∀ b < 4, ramByte t (a + b) = ramByte s (a + b) := fun b hb =>
    ramByte_of_exec h fun j hj => ha j hj b hb
  rw [ramWord, ramWord, hbyte 1 (by decide), hbyte 2 (by decide), hbyte 3 (by decide)]
  exact congrArg _ (hbyte 0 (by decide))

/-- The operands a command finds are there when it has ended (R104): TEXT_OUT overlaps no operand location. -/
theorem readLoc_operand_of_exec {i : Instr} {s t : State} {l : Loc} (hc : s.cfg.wf = true)
    (hl : l.present s.cfg = true) (hop : operandLoc l) (h : exec i s = .next t) : readLoc t l = readLoc s l := by
  obtain ⟨⟨-, -, hkey, hdin, htextLen, hpairCount, hworkers, -⟩, -⟩ := commandKeeps_of_exec h
  have hram : (∀ j, l ≠ .textOut j) → ramWord t l.offset = ramWord s l.offset := fun hne =>
    ramWord_of_exec h fun j hj b hb => by
      have := offset_apart (l := .textOut j) hc (decide_eq_true hj) hl (hne j)
      simp only [Loc.offset] at this ⊢
      omega
  cases l with
  | key => exact hkey
  | din => exact hdin
  | textLen => exact htextLen
  | pairCount => exact hpairCount
  | workers => exact hworkers
  | pairPt n | pairCt n | textIn n => exact hram (by simp)
  | _ => exact hop.elim

/-- Settles O30: each clause from the four things that a sequencer step can be. -/
theorem commandFrame : Obligations.CommandFrame := by
  intro i s t h
  obtain ⟨hkept, houtputs⟩ := commandKeeps_of_exec h
  refine ⟨hkept, fun l hl hc hop => readLoc_operand_of_exec hc hl hop h, houtputs,
    fun henc hdec => dout_of_exec henc hdec h, fun henc hdec a => ?_, fun hi => progress_of_exec hi h⟩
  obtain ⟨-, -, -, -, -, -, -, hepoch, -⟩ := hkept
  exact ramByte_congr (ram_of_exec henc hdec h) hepoch a

end Sys2Proof.Machine
end

section
/-! PROOFS. The workers' steps and the join, each with its whole effect (44_bruteforce.md R236, R237, R244, R245), and
the moves of two workers in either order (20_memory.md R84). -/

namespace Sys2Proof.Machine

/-! ### One worker's step -/

section Worker

variable {s : State} {w : Nat} {x : Worker} (hx : s.workers[w]? = some x)
include hx

theorem workerMove_test (hp : x.phase = .run) (hk : x.k < x.hi) :
    workerMove w s = some { s with workers := s.workers.set w (testStep s x) } := by
  simp only [workerMove, hx, hp, if_pos hk]

theorem workerMove_rangeEnd (hp : x.phase = .run) (hk : x.k = x.hi) :
    workerMove w s = some { s with workers := s.workers.set w { x with phase := .mergePending } } := by
  have hlt : ¬ x.k < x.hi := by omega
  simp only [workerMove, hx, hp, if_neg hlt, if_pos hk]

theorem workerMove_pastRange (hp : x.phase = .run) (hk : x.hi < x.k) : workerMove w s = none := by
  have hlt : ¬ x.k < x.hi := by omega
  have hne : ¬ x.k = x.hi := by omega
  simp only [workerMove, hx, hp, if_neg hlt, if_neg hne]

theorem workerMove_merge (hp : x.phase = .mergePending) (hlock : s.lock = .free) :
    workerMove w s = some (mergeStep s w x) := by
  simp only [workerMove, hx, hp, if_pos hlock]

theorem workerMove_locked (hp : x.phase = .mergePending) (hlock : s.lock ≠ .free) : workerMove w s = none := by
  simp only [workerMove, hx, hp, if_neg hlock]

theorem workerMove_atRest (hp : x.phase = .idle ∨ x.phase = .merged) : workerMove w s = none := by
  obtain hp | hp := hp
  · simp only [workerMove, hx, hp]
  · simp only [workerMove, hx, hp]

end Worker

/-- Settles O35: each guard of the worker's move and the step behind it. -/
theorem workerStepsTestEndAndMerge : Obligations.WorkerStepsTestEndAndMerge := by
  intro s w x hx
  refine ⟨fun hp hk => ⟨(testStep s x).lbuf, ?_, getLsbD_testStep s x⟩, workerMove_rangeEnd hx, workerMove_pastRange hx,
    workerMove_merge hx, workerMove_locked hx, workerMove_atRest hx⟩
  exact workerMove_test hx hp hk

/-! ### The join -/

theorem seqMove_of_allMerged {s : State} (hp : s.phase = .searchRun) (hm : allMerged s = true) :
    seqMove s = some (.next (join s)) := by
  simp only [seqMove, hp, if_pos hm]

theorem seqMove_of_not_allMerged {s : State} (hp : s.phase = .searchRun) (hm : ¬ allMerged s = true) :
    seqMove s = none := by
  simp only [seqMove, hp, if_neg hm]

/-- Settles O37: the guard is `allMerged`, and the commit is the successful one. -/
theorem joinCommitsTheSearch : Obligations.JoinCommitsTheSearch := by
  refine fun s hp => ⟨fun hm => ⟨(join s).workers, Config.freeWord s.draws, ?_, ?_, fun w x hx => ?_⟩, ?_⟩
  · exact seqMove_of_allMerged hp (allMerged_iff.2 hm)
  · rw [join_workers, List.length_mapIdx]
  · rw [join_workers, List.getElem?_mapIdx, hx]
    rfl
  · rintro ⟨w, hw, hnot⟩
    refine seqMove_of_not_allMerged hp fun hm => ?_
    obtain ⟨x, hx, hmerged⟩ := allMerged_iff.1 hm w hw
    exact hnot x hx hmerged

/-- Settles O39: the invariant's account of AGG_MAP, at the join. -/
theorem joinYieldsTheCandidateSet : Obligations.JoinYieldsTheCandidateSet := fun _ _ hinv hphase hmove _ hk =>
  getLsbD_matchMap_of_join hinv hphase hmove hk

/-! ### A worker's move as its own next state and what it adds to AGG_MAP -/

/-- The worker after its move and the batch that the move ORs into AGG_MAP; `none` when the move is not enabled. -/
def workerNext (s : State) (x : Worker) : Option (Worker × KeySet) :=
  match x.phase with
  | .run =>
    if x.k < x.hi then some (testStep s x, 0)
    else if x.k = x.hi then some ({ x with phase := .mergePending }, 0)
    else none
  | .mergePending => if s.lock = .free then some ({ x with phase := .merged }, x.lbuf) else none
  | .idle => none
  | .merged => none

/-- The state in which worker `w` has become `r.1` and AGG_MAP has taken `r.2` in. LOCK is as it was: a merge finds it
FREE and leaves it FREE (R244). -/
def takeMove (s : State) (w : Nat) (r : Worker × KeySet) : State :=
  { s with workers := s.workers.set w r.1, aggMap := s.aggMap ||| r.2 }

theorem takeMove_no_batch (s : State) (w : Nat) (y : Worker) :
    takeMove s w (y, 0) = { s with workers := s.workers.set w y } := by
  simp [takeMove]

theorem takeMove_merge {s : State} (h : s.lock = .free) (w : Nat) (x : Worker) :
    takeMove s w ({ x with phase := .merged }, x.lbuf) = mergeStep s w x := by
  rw [takeMove, mergeStep, ← h]

/-- A worker's move changes its own worker and AGG_MAP, by what the worker, MATCHES and LOCK say. -/
theorem workerMove_eq (s : State) (w : Nat) :
    workerMove w s = (s.workers[w]?.bind (workerNext s)).map (takeMove s w) := by
  cases hx : s.workers[w]? with
  | none => simp only [workerMove, hx, Option.bind_none, Option.map_none]
  | some x =>
    rw [Option.bind_some]
    cases hp : x.phase with
    | idle => simp only [workerMove_atRest hx (.inl hp), workerNext, hp, Option.map_none]
    | merged => simp only [workerMove_atRest hx (.inr hp), workerNext, hp, Option.map_none]
    | mergePending =>
      by_cases hlock : s.lock = .free
      · simp only [workerMove_merge hx hp hlock, workerNext, hp, if_pos hlock, Option.map_some, takeMove_merge hlock]
      · simp only [workerMove_locked hx hp hlock, workerNext, hp, if_neg hlock, Option.map_none]
    | run =>
      rcases Nat.lt_trichotomy x.k x.hi with hlt | heq | hgt
      · simp only [workerMove_test hx hp hlt, workerNext, hp, if_pos hlt, Option.map_some, takeMove_no_batch]
      · have hnlt : ¬ x.k < x.hi := by omega
        simp only [workerMove_rangeEnd hx hp heq, workerNext, hp, if_neg hnlt, if_pos heq, Option.map_some,
          takeMove_no_batch]
      · have hnlt : ¬ x.k < x.hi := by omega
        have hne : ¬ x.k = x.hi := by omega
        simp only [workerMove_pastRange hx hp hgt, workerNext, hp, if_neg hnlt, if_neg hne, Option.map_none]

theorem workerMove_eq_some_iff {s t : State} {w : Nat} :
    workerMove w s = some t ↔ ∃ x r, s.workers[w]? = some x ∧ workerNext s x = some r ∧ takeMove s w r = t := by
  simp only [workerMove_eq, Option.map_eq_some_iff, Option.bind_eq_some_iff]
  exact ⟨fun ⟨r, ⟨x, hx, hr⟩, ht⟩ => ⟨x, r, hx, hr, ht⟩, fun ⟨x, r, hx, hr, ht⟩ => ⟨r, ⟨x, hx, hr⟩, ht⟩⟩

theorem workerNext_congr {s t : State} (hmatch : ∀ k, matchesKey t k = matchesKey s k) (hlock : t.lock = s.lock)
    (x : Worker) : workerNext t x = workerNext s x := by
  simp only [workerNext, testStep, hmatch, hlock]

/-! ### Two workers -/

theorem getElem?_takeMove_of_ne {w v : Nat} (h : w ≠ v) (s : State) (r : Worker × KeySet) :
    (takeMove s w r).workers[v]? = s.workers[v]? :=
  List.getElem?_set_ne h

theorem takeMove_comm {w v : Nat} (h : w ≠ v) (s : State) (r q : Worker × KeySet) :
    takeMove (takeMove s w r) v q = takeMove (takeMove s v q) w r := by
  simp only [takeMove, List.set_comm _ _ h, BitVec.or_assoc, BitVec.or_comm r.2]

/-- Another worker's move leaves worker `v` enabled, with the same next state and batch. -/
theorem workerMove_takeMove {s : State} {w v : Nat} {y : Worker} {q : Worker × KeySet} (h : w ≠ v)
    (hy : s.workers[v]? = some y) (hq : workerNext s y = some q) (r : Worker × KeySet) :
    workerMove v (takeMove s w r) = some (takeMove (takeMove s w r) v q) :=
  workerMove_eq_some_iff.2 ⟨y, q, (getElem?_takeMove_of_ne h s r).trans hy,
    (workerNext_congr (s := s) (t := takeMove s w r) (matchesKey_congr rfl rfl rfl) rfl y).trans hq, rfl⟩

/-- Settles O38: the two moves replace different workers, and OR is commutative. -/
theorem workerMovesCommute : Obligations.WorkerMovesCommute := by
  intro s t u w v hne hw hv
  obtain ⟨x, r, hx, hr, rfl⟩ := workerMove_eq_some_iff.1 hw
  obtain ⟨y, q, hy, hq, rfl⟩ := workerMove_eq_some_iff.1 hv
  refine ⟨takeMove (takeMove s w r) v q, workerMove_takeMove hne hy hq r, ?_⟩
  rw [takeMove_comm hne]
  exact workerMove_takeMove hne.symm hx hr q

end Sys2Proof.Machine
end

section
/-! PROOFS. A command checks and reads its own operands only (30_encoding.md R104, 60_exceptions.md R272). -/

namespace Sys2Proof.Machine

theorem kind_ne_none_of_commandError {s : State} {e : CommandError}
    (h : blockError s = some e ∨ textError s = some e ∨ searchError s = some e) : e.1.kind ≠ .none := by
  simp [commandError_kind h]

/-! ### Operands that a command does not have -/

theorem exec_search_setOthers (s : State) (key din textLen : Word) :
    exec .search { s with key := key, din := din, textLen := textLen } =
      mapNext (fun t => { t with key := key, din := din, textLen := textLen }) (exec .search s) := by
  have hcheck : searchError { s with key := key, din := din, textLen := textLen } = searchError s :=
    searchError_congr rfl rfl rfl rfl
  cases herr : searchError s with
  | none =>
    rw [exec_search_of_no_error herr, exec_search_of_no_error (hcheck.trans herr)]
    rfl
  | some e =>
    rw [exec_search_of_error herr, exec_search_of_error (hcheck.trans herr)]
    rfl

theorem blockCommand_setOthers (cipher : Byte → MasterKey → Byte) (s : State) (pairCount workersReq textLen : Word)
    (m : List Host.Cell) :
    blockCommand cipher { s with pairCount := pairCount, workersReq := workersReq, textLen := textLen, ram := m } =
      { blockCommand cipher s with
        pairCount := pairCount, workersReq := workersReq, textLen := textLen, ram := m } := by
  have hcheck : blockError { s with pairCount := pairCount, workersReq := workersReq, textLen := textLen, ram := m } =
      blockError s := blockError_congr rfl rfl
  cases herr : blockError s with
  | none =>
    rw [blockCommand_of_no_error herr, blockCommand_of_no_error (hcheck.trans herr)]
    rfl
  | some e =>
    rw [blockCommand_of_error herr, blockCommand_of_error (hcheck.trans herr)]
    rfl

theorem exec_block_setOthers {i : Instr} (hi : i = .encBlock ∨ i = .decBlock) (s : State)
    (pairCount workersReq textLen : Word) (m : List Host.Cell) :
    exec i { s with pairCount := pairCount, workersReq := workersReq, textLen := textLen, ram := m } =
      mapNext (fun t => { t with pairCount := pairCount, workersReq := workersReq, textLen := textLen, ram := m })
        (exec i s) := by
  obtain rfl | rfl := hi
  · exact congrArg Host.Outcome.next (blockCommand_setOthers encrypt8 s pairCount workersReq textLen m)
  · exact congrArg Host.Outcome.next (blockCommand_setOthers decrypt8 s pairCount workersReq textLen m)

/-! ### Text -/

theorem textError_of_sameTextInputs {s u : State} (h : sameTextInputs s u) : textError u = textError s := by
  obtain ⟨hcfg, hkey, hlen, hunits⟩ := h
  have hbad : firstBadUnit u s.textLen.toNat = firstBadUnit s s.textLen.toNat :=
    List.find?_congr fun i hi => by rw [hunits i (List.mem_range.1 hi)]
  simp only [textError, keyError, hcfg, hkey, hlen, hbad]

/-- The shared rule of the text commands sees no more than its operands (R208, R209). -/
theorem textCommand_of_sameTextInputs {s u : State} (h : sameTextInputs s u) (cipher : Byte → MasterKey → Byte) :
    (textCommand cipher u).status.errCode = (textCommand cipher s).status.errCode ∧
    (textCommand cipher u).errInfo = (textCommand cipher s).errInfo ∧
    ((textCommand cipher s).status.errCode = .none → ∀ j < s.textLen.toNat,
      textOut (textCommand cipher u) j = textOut (textCommand cipher s) j) := by
  have hcheck := textError_of_sameTextInputs h
  obtain ⟨-, hkey, hlen, hunits⟩ := h
  cases herr : textError s with
  | some e =>
    rw [textCommand_of_error herr, textCommand_of_error (hcheck.trans herr)]
    exact ⟨rfl, rfl, fun hnone => absurd hnone (kind_ne_none_of_commandError (.inr (.inl herr)))⟩
  | none =>
    have hunit : ∀ j < s.textLen.toNat, textOut (textCommand cipher u) j = textOut (textCommand cipher s) j := by
      intro j hj
      rw [textOut_textCommand (hcheck.trans herr) cipher (hlen ▸ hj), textOut_textCommand herr cipher hj, hunits j hj,
        masterKey, masterKey, hkey]
    rw [textCommand_of_no_error herr, textCommand_of_no_error (hcheck.trans herr)] at hunit ⊢
    exact ⟨rfl, rfl, fun _ => hunit⟩

/-! ### SEARCH -/

section SameSearch

variable {s u : State} (hin : sameSearchInputs s u)
include hin

theorem effWorkers_of_sameSearchInputs : effWorkers u = effWorkers s := by
  obtain ⟨hcfg, -, hreq, -⟩ := hin
  exact effWorkers_congr hcfg hreq

theorem searchError_of_sameSearchInputs : searchError u = searchError s := by
  obtain ⟨hcfg, hcount, -, hpairs⟩ := hin
  have hscan : (List.range s.pairCount.toNat).findSome? (pairError u) =
      (List.range s.pairCount.toNat).findSome? (pairError s) := by
    rw [← List.head?_filterMap, ← List.head?_filterMap]
    refine congrArg List.head? (List.filterMap_congr fun i hi => ?_)
    obtain ⟨hpt, hct⟩ := hpairs i (List.mem_range.1 hi)
    rw [pairError, pairError, hpt, hct]
  rw [searchError, searchError, hcfg, hcount, hscan]

theorem matchesKey_of_sameSearchInputs (k : Nat) : matchesKey u k = matchesKey s k := by
  obtain ⟨-, hcount, -, hpairs⟩ := hin
  rw [Bool.eq_iff_iff, matchesKey_iff, matchesKey_iff, hcount]
  refine forall₂_congr fun p hp => ?_
  obtain ⟨hpt, hct⟩ := hpairs p hp
  rw [hpt, hct]

/-- SEARCH's sequencer step has the same outcome, or launches the same workers. -/
theorem exec_search_of_sameSearchInputs {s' u' : State} (hprog : sameProgress s u) (hs : exec .search s = .next s')
    (hu : exec .search u = .next u') :
    u'.phase = s'.phase ∧ sameProgress s' u' ∧
      (s'.phase = .idle → u'.status.errCode = s'.status.errCode ∧ u'.errInfo = s'.errInfo) := by
  have hcheck := searchError_of_sameSearchInputs hin
  have heff := effWorkers_of_sameSearchInputs hin
  cases herr : searchError s with
  | some e =>
    rw [exec_search_of_error herr] at hs
    rw [exec_search_of_error (hcheck.trans herr)] at hu
    cases hs
    cases hu
    exact ⟨rfl, hprog, fun _ => ⟨rfl, rfl⟩⟩
  | none =>
    rw [exec_search_of_no_error herr] at hs
    rw [exec_search_of_no_error (hcheck.trans herr)] at hu
    cases hs
    cases hu
    obtain ⟨hworkers, -, -⟩ := hprog
    refine ⟨rfl, ⟨?_, rfl, rfl⟩, fun hidle => by cases hidle⟩
    rw [launch_workers, launch_workers, hworkers, heff]

/-- A worker's move in one state is its move in the other: the same next state of the worker and the same batch. -/
theorem workerMove_of_sameSearchInputs (hprog : sameProgress s u) (w : Nat) :
    workerMove w u = (s.workers[w]?.bind (workerNext s)).map (takeMove u w) := by
  obtain ⟨hworkers, -, hlock⟩ := hprog
  have hnext : workerNext u = workerNext s :=
    funext (workerNext_congr (matchesKey_of_sameSearchInputs hin) hlock)
  rw [workerMove_eq, hworkers, hnext]

theorem workerMove_none_iff_of_sameSearchInputs (hprog : sameProgress s u) (w : Nat) :
    workerMove w s = none ↔ workerMove w u = none := by
  rw [workerMove_of_sameSearchInputs hin hprog, workerMove_eq, Option.map_eq_none_iff, Option.map_eq_none_iff]

theorem sameProgress_of_workerMove (hprog : sameProgress s u) {w : Nat} {s' u' : State}
    (hs : workerMove w s = some s') (hu : workerMove w u = some u') : sameProgress s' u' := by
  rw [workerMove_of_sameSearchInputs hin hprog] at hu
  rw [workerMove_eq] at hs
  obtain ⟨r, hr, rfl⟩ := Option.map_eq_some_iff.1 hs
  rw [hr, Option.map_some] at hu
  obtain rfl := Option.some.inj hu
  obtain ⟨hworkers, hagg, hlock⟩ := hprog
  exact ⟨congrArg (·.set w r.1) hworkers, congrArg (· ||| r.2) hagg, hlock⟩

theorem allMerged_of_sameSearchInputs (hprog : sameProgress s u) : allMerged u = allMerged s := by
  obtain ⟨hworkers, -, -⟩ := hprog
  rw [Bool.eq_iff_iff, allMerged_iff, allMerged_iff, effWorkers_of_sameSearchInputs hin, hworkers]

theorem sameProgress_join (hprog : sameProgress s u) : sameProgress (join s) (join u) := by
  obtain ⟨hworkers, hagg, hlock⟩ := hprog
  refine ⟨?_, hagg, hlock⟩
  rw [join_workers, join_workers, hworkers, effWorkers_of_sameSearchInputs hin]

end SameSearch

theorem seqMove_searchRun_none_iff {s : State} (hp : s.phase = .searchRun) :
    seqMove s = none ↔ ¬ allMerged s = true := by
  refine ⟨fun hnone hm => ?_, seqMove_of_not_allMerged hp⟩
  rw [seqMove_of_allMerged hp hm] at hnone
  cases hnone

/-- The join is enabled in both states or in neither, and commits the same set and worker count. -/
theorem join_of_sameSearchInputs {s u : State} (hin : sameSearchInputs s u) (hprog : sameProgress s u)
    (hps : s.phase = .searchRun) (hpu : u.phase = .searchRun) :
    (seqMove s = none ↔ seqMove u = none) ∧
    ∀ s' u', seqMove s = some (.next s') → seqMove u = some (.next u') →
      sameProgress s' u' ∧ u'.matchMap = s'.matchMap ∧ u'.workersEff = s'.workersEff ∧
      u'.status.errCode = s'.status.errCode ∧ u'.errInfo = s'.errInfo := by
  refine ⟨?_, fun s' u' hs hu => ?_⟩
  · rw [seqMove_searchRun_none_iff hps, seqMove_searchRun_none_iff hpu, allMerged_of_sameSearchInputs hin hprog]
  · obtain ⟨-, rfl⟩ := seqMove_searchRun hps hs
    obtain ⟨-, rfl⟩ := seqMove_searchRun hpu hu
    have hjoin := sameProgress_join hin hprog
    obtain ⟨-, hagg, -⟩ := hprog
    refine ⟨hjoin, hagg, ?_, rfl, rfl⟩
    rw [join_workersEff, join_workersEff, effWorkers_of_sameSearchInputs hin]

/-- Settles O43: the checks and effects of each command, the workers' moves and the join are functions of the operands
and of the progress. -/
theorem commandsReadOnlyTheirOperands : Obligations.CommandsReadOnlyTheirOperands := by
  refine ⟨exec_search_setOthers, fun i s a b c m hi => exec_block_setOthers hi s a b c m, ?text,
    fun s u s' u' hin hprog => exec_search_of_sameSearchInputs hin hprog,
    fun s u w hin hprog => ⟨workerMove_none_iff_of_sameSearchInputs hin hprog w,
      fun s' u' => sameProgress_of_workerMove hin hprog⟩,
    fun s u => join_of_sameSearchInputs⟩
  case text =>
    rintro i s u s' u' (rfl | rfl) hin hs hu
    · obtain rfl : textCommand encrypt8 s = s' := Host.Outcome.next.inj hs
      obtain rfl : textCommand encrypt8 u = u' := Host.Outcome.next.inj hu
      exact textCommand_of_sameTextInputs hin encrypt8
    · obtain rfl : textCommand decrypt8 s = s' := Host.Outcome.next.inj hs
      obtain rfl : textCommand decrypt8 u = u' := Host.Outcome.next.inj hu
      exact textCommand_of_sameTextInputs hin decrypt8

end Sys2Proof.Machine
end

section
/-! PROOFS. A step is one agent's move (00_scope.md R13), any enabled move may be the next one (44_bruteforce.md R247),
and only the HOST agent's branches stop a step (60_exceptions.md R278). -/

namespace Sys2Proof.Machine

/-! ### Which agent moves -/

theorem chosenAgent_of_granted {s : State} (h : (agentMove s.grant s).isSome = true) : chosenAgent s = some s.grant :=
  if_pos h

theorem agentMove_worker_absent {s : State} {w : Nat} (h : s.workers.length ≤ w) : agentMove (.worker w) s = none := by
  rw [agentMove, workerMove_eq, List.getElem?_eq_none h]
  rfl

/-- `agentsOf` leaves out only agents that the core does not have. -/
theorem agentMove_none_of_agentsOf {s : State} (h : ∀ a ∈ agentsOf s, agentMove a s = none) (a : Agent) :
    agentMove a s = none := by
  cases a with
  | host => exact h _ (by simp [agentsOf])
  | seq => exact h _ (by simp [agentsOf])
  | worker w =>
    rcases Nat.lt_or_ge w s.workers.length with hlt | hge
    · exact h _ (by simp [agentsOf, hlt])
    · exact agentMove_worker_absent hge

theorem agentMove_none_of_not_chosen {s : State} (h : chosenAgent s = none) (a : Agent) : agentMove a s = none := by
  unfold chosenAgent at h
  split at h
  · cases h
  · refine agentMove_none_of_agentsOf (fun b hb => ?_) a
    simpa using List.find?_eq_none.1 h b hb

/-- Settles O52: the chosen agent is enabled, and when there is none nobody is. -/
theorem stepIsOneAgentsMove : Obligations.StepIsOneAgentsMove := by
  intro s
  cases hchosen : chosenAgent s with
  | none => exact .inl ⟨by rw [step, hchosen], agentMove_none_of_not_chosen hchosen⟩
  | some a =>
    obtain ⟨o, ho⟩ := Option.isSome_iff_exists.1 (chosenAgent_enabled hchosen)
    exact .inr ⟨a, o, ho, step_of_chosen hchosen ho⟩

/-! ### The accepted command -/

theorem decodeTableWord_eq_some_iff {nbits w : Nat} {i : Instr} :
    decodeTableWord nbits w = some i ↔ decode (tableWord nbits w) = .cmd i := by
  unfold decodeTableWord
  cases decode (tableWord nbits w) <;> simp

theorem step_of_accepted {s : State} {i : Instr} (hp : s.phase = .exec) (hop : s.op = .cmd i)
    (hchosen : chosenAgent s = some .seq) : step s = mapNext regrant (exec i s) :=
  step_of_chosen hchosen (seqMove_of_cmd hp hop)

/-- Settles O21: SEQ.op holds the decoded word, and `withFetchWord` offers the sequencer the move. -/
theorem stepRunsTheAcceptedCommand : Obligations.StepRunsTheAcceptedCommand := by
  refine ⟨fun s c i hdecode hp hop hchosen => step_of_accepted hp (hop.trans hdecode) hchosen,
    fun s nbits w i htable => ?_⟩
  have hop : (s.withFetchWord nbits w).op = .cmd i := decodeTableWord_eq_some_iff.1 htable
  have henabled : agentMove .seq (s.withFetchWord nbits w) = some (exec i (s.withFetchWord nbits w)) :=
    seqMove_of_cmd rfl hop
  exact step_of_accepted rfl hop (chosenAgent_of_granted (Option.isSome_of_eq_some henabled))

/-! ### The offer of the move is no part of a move -/

/-- The state with the next move offered to `g`. -/
def offerTo (g : Agent) (s : State) : State := { s with grant := g }

theorem regrant_offerTo (g : Agent) (s : State) : regrant (offerTo g s) = regrant s := rfl

theorem checked_offerTo {g : Agent} (f : State → State) (hf : ∀ s, f (offerTo g s) = offerTo g (f s))
    (err : Option CommandError) (s : State) : checked err f (offerTo g s) = offerTo g (checked err f s) := by
  cases err with
  | none => exact hf s
  | some e => rfl

theorem blockCommand_offerTo (cipher : Byte → MasterKey → Byte) (g : Agent) (s : State) :
    blockCommand cipher (offerTo g s) = offerTo g (blockCommand cipher s) :=
  checked_offerTo (fun s => commitOk { s with dout := cipher (blockOf s.din) (masterKey s) }) (fun _ => rfl) _ s

theorem textCommand_offerTo (cipher : Byte → MasterKey → Byte) (g : Agent) (s : State) :
    textCommand cipher (offerTo g s) = offerTo g (textCommand cipher s) :=
  checked_offerTo (fun s => commitOk { s with ram := writeUnits cipher s s.textLen.toNat }) (fun _ => rfl) _ s

theorem exec_offerTo (g : Agent) (i : Instr) (s : State) : exec i (offerTo g s) = mapNext (offerTo g) (exec i s) := by
  cases i with
  | encBlock => exact congrArg Host.Outcome.next (blockCommand_offerTo encrypt8 g s)
  | decBlock => exact congrArg Host.Outcome.next (blockCommand_offerTo decrypt8 g s)
  | encText => exact congrArg Host.Outcome.next (textCommand_offerTo encrypt8 g s)
  | decText => exact congrArg Host.Outcome.next (textCommand_offerTo decrypt8 g s)
  | search => exact congrArg Host.Outcome.next (checked_offerTo launch (fun _ => rfl) (searchError s) s)

theorem seqMove_of_illegal {s : State} {why : IllegalWord} (hp : s.phase = .exec) (hop : s.op = .illegal why) :
    seqMove s = some (.next (commitError (illegalSubCause why, 0) s)) := by
  simp only [seqMove, hp, hop]

theorem seqMove_offerTo {g : Agent} {s t : State} (h : seqMove s = some (.next t)) :
    seqMove (offerTo g s) = some (.next (offerTo g t)) := by
  obtain ⟨i, hp, hop, ht⟩ | ⟨why, hp, hop, ht⟩ | ⟨hp, hm, ht⟩ := seqMove_cases h
  · rw [seqMove_of_cmd (s := offerTo g s) hp hop, exec_offerTo, ← ht]
    rfl
  · obtain rfl := Host.Outcome.next.inj ht
    exact seqMove_of_illegal (s := offerTo g s) hp hop
  · obtain rfl := Host.Outcome.next.inj ht
    exact seqMove_of_allMerged (s := offerTo g s) hp hm

theorem workerMove_offerTo {g : Agent} {s t : State} {w : Nat} (h : workerMove w s = some t) :
    workerMove w (offerTo g s) = some (offerTo g t) := by
  obtain ⟨x, r, hx, hr, rfl⟩ := workerMove_eq_some_iff.1 h
  exact workerMove_eq_some_iff.2 ⟨x, r, hx, hr, rfl⟩

/-! ### The offer of the move and the HOST agent -/

theorem readAccess_offerTo (g : Agent) (s : State) (l : Loc) :
    readAccess (offerTo g s) l = Prod.map id (offerTo g) (readAccess s l) := by
  unfold readAccess
  rw [apply_ite (Prod.map id (offerTo g))]
  rfl

theorem memRead_offerTo (g : Agent) (s : State) (size addr : Nat) :
    memRead (offerTo g s) size addr = Prod.map id (offerTo g) (memRead s size addr) := by
  have hcfg : (offerTo g s).cfg = s.cfg := rfl
  unfold memRead
  rw [hcfg]
  cases target s.cfg size addr with
  | none => rfl
  | some l => simp only [readAccess_offerTo, Prod.map]; rfl

theorem writeCtrl_offerTo (g : Agent) (s : State) (v : Word) :
    writeCtrl (offerTo g s) v = offerTo g (writeCtrl s v) := by
  unfold writeCtrl
  rw [apply_ite (offerTo g), apply_ite (offerTo g)]
  rfl

theorem writeLoc_offerTo (g : Agent) (s : State) (v : Word) (l : Loc) :
    writeLoc (offerTo g s) v l = offerTo g (writeLoc s v l) := by
  cases l with
  | ctrl => exact writeCtrl_offerTo g s v
  | _ => rfl

theorem writeAccess_offerTo (g : Agent) (s : State) (l : Loc) (v : Word) :
    writeAccess (offerTo g s) l v = offerTo g (writeAccess s l v) := by
  unfold writeAccess
  rw [apply_ite (offerTo g), apply_ite (offerTo g), writeLoc_offerTo]
  rfl

theorem memWrite_offerTo (g : Agent) (s : State) (size addr : Nat) (v : Word) :
    memWrite (offerTo g s) size addr v = Prod.map id (offerTo g) (memWrite s size addr v) := by
  have hcfg : (offerTo g s).cfg = s.cfg := rfl
  unfold memWrite
  rw [hcfg]
  cases target s.cfg size addr with
  | none => rfl
  | some l => simp only [writeAccess_offerTo, Prod.map]; rfl

theorem driveRst_offerTo (g : Agent) (s : State) (asserted : Bool) :
    driveRst (offerTo g s) asserted = offerTo g (driveRst s asserted) := by
  unfold driveRst
  rw [apply_ite (offerTo g)]
  rfl

theorem hostRead_offerTo (g : Agent) (s : State) (size addr : Nat) (name : Option Nat) :
    hostRead (offerTo g s) size addr name = offerTo g (hostRead s size addr name) := by
  unfold hostRead
  rw [memRead_offerTo]
  cases name with
  | none => rfl
  | some n => rfl

theorem hostWrite_offerTo (g : Agent) (s : State) (size addr : Nat) (v : Word) :
    hostWrite (offerTo g s) size addr v = offerTo g (hostWrite s size addr v) := by
  unfold hostWrite
  rw [memWrite_offerTo]
  rfl

theorem hostAccess_offerTo {g : Agent} {s : State} {access access' : Nat → State}
    (h : ∀ a, access' a = offerTo g (access a)) (address : Option Nat) :
    hostAccess (offerTo g s) address access' = offerTo g (hostAccess s address access) := by
  cases address with
  | none => rfl
  | some a => exact h a

theorem hostBranch_offerTo (g : Agent) (s : State) (name : Nat) (mask value : Word) (l : Nat) :
    hostBranch (offerTo g s) name mask value l = mapNext (offerTo g) (hostBranch s name mask value l) := by
  have hhost : (offerTo g s).host = s.host := rfl
  unfold hostBranch
  rw [hhost]
  cases cellGet s.host.names name with
  | none => rfl
  | some v =>
    rw [apply_ite (mapNext (offerTo g))]
    cases labelIndex s.host.prog l with
    | none => rfl
    | some i => rfl

theorem hostStmt_offerTo (g : Agent) (s : State) (st : HostStmt) :
    hostStmt (offerTo g s) st = mapNext (offerTo g) (hostStmt s st) := by
  cases st with
  | wr loc imm => exact congrArg Host.Outcome.next (hostAccess_offerTo (fun a => hostWrite_offerTo g s 4 a imm) _)
  | rd loc name => exact congrArg Host.Outcome.next (hostAccess_offerTo (fun a => hostRead_offerTo g s 4 a name) _)
  | label l => rfl
  | bne name mask value l => exact hostBranch_offerTo g s name mask value l
  | rawRead size addr => exact congrArg Host.Outcome.next (hostRead_offerTo g s size addr none)
  | rawWrite size addr v => exact congrArg Host.Outcome.next (hostWrite_offerTo g s size addr v)
  | rst asserted =>
    rw [hostStmt, driveRst_offerTo]
    rfl

theorem agentMove_offerTo {g a : Agent} {s t : State} (h : agentMove a s = some (.next t)) :
    agentMove a (offerTo g s) = some (.next (offerTo g t)) := by
  obtain ⟨rfl, st, hst, ht⟩ | ⟨rfl, hseq⟩ | ⟨w, rfl, hworker⟩ := agentMove_next h
  · have hst' : (offerTo g s).host.prog[(offerTo g s).host.pc]? = some st := hst
    rw [agentMove, hostMove, hst']
    simp only [hostStmt_offerTo, ht, mapNext]
  · exact seqMove_offerTo hseq
  · exact congrArg (Option.map Host.Outcome.next) (workerMove_offerTo hworker)

/-- Settles O53: the granted agent moves, and its move does not depend on the grant. -/
theorem everyEnabledMoveCanBeNext : Obligations.EveryEnabledMoveCanBeNext := by
  intro s t a h
  have hmove : agentMove a (offerTo a s) = some (.next (offerTo a t)) := agentMove_offerTo h
  have hchosen : chosenAgent (offerTo a s) = some a := chosenAgent_of_granted (Option.isSome_of_eq_some hmove)
  calc step (offerTo a s) = mapNext regrant (.next (offerTo a t)) := step_of_chosen hchosen hmove
    _ = .next (regrant t) := congrArg Host.Outcome.next (regrant_offerTo a t)

/-! ### What stops a step -/

/-- The only host statement that can stop is a branch, and none is refused (log 13). -/
theorem hostStmt_stops (s : State) (st : HostStmt) :
    (∃ t, hostStmt s st = .next t) ∨
    (∃ f name mask value l, st = .bne name mask value l ∧ hostStmt s st = .fault f) := by
  cases st with
  | wr _ _ | rd _ _ | label _ | rawRead _ _ | rawWrite _ _ _ | rst _ => exact .inl ⟨_, rfl⟩
  | bne name mask value l =>
    simp only [hostStmt, hostBranch]
    split
    · exact .inr ⟨_, name, mask, value, l, rfl, rfl⟩
    · split
      · exact .inl ⟨_, rfl⟩
      · split
        · exact .inr ⟨_, name, mask, value, l, rfl, rfl⟩
        · exact .inl ⟨_, rfl⟩

/-- No move of the core stops. -/
theorem exists_next_of_coreMove {a : Agent} {s : State} {o : Host.Outcome State Fault Refusal} (ha : a.isCore = true)
    (h : agentMove a s = some o) : ∃ t, o = .next t := by
  cases a with
  | host => cases ha
  | seq =>
    obtain ⟨i, -, -, rfl⟩ | ⟨why, -, -, rfl⟩ | ⟨-, -, rfl⟩ := seqMove_cases h
    · exact exists_exec_next i s
    · exact ⟨_, rfl⟩
    · exact ⟨_, rfl⟩
  | worker w =>
    obtain ⟨t, -, rfl⟩ := Option.map_eq_some_iff.1 h
    exact ⟨t, rfl⟩

theorem hostMove_eq_some {s : State} {o : Host.Outcome State Fault Refusal} (h : hostMove s = some o) :
    ∃ st, s.host.prog[s.host.pc]? = some st ∧ o = hostStmt s st := by
  unfold hostMove at h
  split at h
  · cases h
  · exact ⟨_, ‹_›, (Option.some.inj h).symm⟩

/-- A move answers a next state, or it is the HOST agent's branch and faults. -/
theorem agentMove_stops {a : Agent} {s : State} {o : Host.Outcome State Fault Refusal} (h : agentMove a s = some o) :
    (∃ t, o = .next t) ∨
    (∃ f name mask value l, s.host.prog[s.host.pc]? = some (.bne name mask value l) ∧ o = .fault f) := by
  cases a with
  | host =>
    obtain ⟨st, hst, rfl⟩ := hostMove_eq_some h
    obtain hnext | ⟨f, name, mask, value, l, rfl, hf⟩ := hostStmt_stops s st
    · exact .inl hnext
    · exact .inr ⟨f, name, mask, value, l, hst, hf⟩
  | seq => exact .inl (exists_next_of_coreMove rfl h)
  | worker w => exact .inl (exists_next_of_coreMove rfl h)

/-- Settles O54: a step is a move, and a move stops only at a branch. -/
theorem stepsStopOnlyAtHostBranches : Obligations.StepsStopOnlyAtHostBranches := by
  intro s
  obtain ⟨hidle, -⟩ | ⟨a, o, hmove, hstep⟩ := stepIsOneAgentsMove s
  · simp [hidle]
  · obtain ⟨t, rfl⟩ | ⟨f, name, mask, value, l, hst, rfl⟩ := agentMove_stops hmove
    · simp [hstep, mapNext]
    · simp [hstep, mapNext, hst]

/-! ### WAIT -/

/-- The mask and value of WAIT's branch (30_encoding.md R117) test bits 0 and 1 alone. -/
theorem and_three_eq_two_iff {w : Word} : w &&& 0x00000003 = 0x00000002 ↔ w.getLsbD 0 = false ∧ w.getLsbD 1 = true := by
  have hmask (i : Nat) : (w &&& 0x00000003).getLsbD i = (w.getLsbD i && (0x00000003 : Word).getLsbD i) :=
    BitVec.getLsbD_and
  constructor
  · intro h
    rw [h] at hmask
    exact ⟨(Bool.and_true _).symm.trans (hmask 0).symm, (Bool.and_true _).symm.trans (hmask 1).symm⟩
  · rintro ⟨h0, h1⟩
    apply BitVec.eq_of_getLsbD_eq
    intro i _
    rw [hmask]
    match i with
    | 0 => rw [h0]; rfl
    | 1 => rw [h1]; rfl
    | i + 2 => simp [BitVec.getLsbD_ofNat, Nat.testBit_succ]

theorem statusWord_wait_iff (st : Status) :
    st.word &&& 0x00000003 = 0x00000002 ↔ st.busy = false ∧ st.done = true := by
  obtain ⟨hbusy, hdone, -⟩ := statusWord_flags st
  rw [and_three_eq_two_iff, hbusy, hdone]

/-- Settles O59: BNE falls through when the masked word is the value. -/
theorem waitEndsAtDone : Obligations.WaitEndsAtDone := by
  intro s st t lp i hname hlabel
  simp only [hostStmt, hostBranch, hname, hlabel, statusWord_wait_iff]
  split
  · rfl
  · rfl

end Sys2Proof.Machine
end

section
/-! PROOFS. The state during and after a hardware reset (70_reset_and_hazards.md R300). -/

namespace Sys2Proof.Machine

theorem hostStmt_rst_event {s : State} {asserted : Bool} (h : asserted = true ∨ s.rst = true) :
    hostStmt s (.rst asserted) = .next (hostGoto { hardReset s with rst := asserted } (s.host.pc + 1)) := by
  obtain ⟨-, hdrive⟩ | ⟨hreleased, hr, -⟩ := driveRst_cases s asserted
  · rw [hostStmt, hdrive]
  · simp [hreleased, hr] at h

theorem hostStmt_rst_no_event {s : State} (h : s.rst = false) :
    hostStmt s (.rst false) = .next (hostGoto s (s.host.pc + 1)) := by
  rw [hostStmt, driveRst, h]
  rfl

theorem word_ctrlReset : Ctrl.word { irqEn := false } = 0 := by decide

/-- The empty set has no key (10_state.md R36, R42). -/
theorem matchCount_zero : matchCount 0 = 0 := by
  simp [matchCount]

theorem matchKey_zero (j : Nat) : matchKey 0 j = 0 := matchKey_of_ge (matchCount_zero.le.trans (Nat.zero_le j))

theorem phase_of_inReset {s : State} (h : inReset s) : s.phase = .idle ∧ ∀ x ∈ s.workers, x.phase = .idle := by
  obtain ⟨-, -, -, -, -, -, -, -, -, -, -, -, -, hphase, hworkers, -⟩ := h
  exact ⟨hphase, hworkers⟩

/-- A host statement leaves a core in reset as it is, and only the release of `rst` ends the reset. -/
theorem held_of_hostStmt {s t : State} {st : HostStmt} (h : inReset s) (hr : s.rst = true)
    (hst : hostStmt s st = .next t) : inReset t ∧ (t.rst = true ∨ st = .rst false) := by
  obtain ⟨ha, rfl⟩ | ⟨ha, rfl⟩ | ⟨v, u, ha, -, hheld, rfl⟩ | ⟨asserted, ha, rfl, -, rfl⟩ := hostStmt_cases hst
  · exact ⟨h, .inl hr⟩
  · exact ⟨h, .inl hr⟩
  · obtain rfl := hheld hr
    exact ⟨h, .inl hr⟩
  · refine ⟨inReset_hardReset s, ?_⟩
    cases asserted with
    | true => exact .inl rfl
    | false => exact .inr rfl

/-- In the reset state only the HOST agent has a move. -/
theorem held_of_agentMove {a : Agent} {s t : State} (h : inReset s) (hr : s.rst = true)
    (hmove : agentMove a s = some (.next t)) :
    inReset t ∧ (t.rst = true ∨ s.host.prog[s.host.pc]? = some (.rst false)) := by
  obtain ⟨hphase, hworkers⟩ := phase_of_inReset h
  obtain ⟨-, st, hst, ht⟩ | ⟨-, hseq⟩ | ⟨w, -, hworker⟩ := agentMove_next hmove
  · obtain ⟨hreset, hrst | rfl⟩ := held_of_hostStmt h hr ht
    · exact ⟨hreset, .inl hrst⟩
    · exact ⟨hreset, .inr hst⟩
  · rw [seqMove_of_idle hphase] at hseq
    cases hseq
  · rw [workerMove_of_idle hworkers] at hworker
    cases hworker

/-- Settles O47: both events leave the hardware reset's state, whose set is empty and whose RAM lists no byte; the
invariant holds the core in it while `rst` is asserted. -/
theorem hardwareResetState : Obligations.HardwareResetState := by
  refine ⟨fun s asserted hevent => ⟨_, hostStmt_rst_event hevent, ?state⟩, fun s => hostStmt_rst_no_event,
    fun s size addr v hr => memWrite_held hr size addr v, fun a s t hinv hr => held_of_agentMove (hinv.held hr) hr⟩
  case state =>
    refine ⟨rfl, rfl, word_ctrlReset, word_statusReset, word_errInfoZero, rfl, rfl, rfl, rfl, rfl, rfl, rfl, rfl, rfl,
      fun j => ?matchKey, ?matchCount, fun a => rfl, rfl,
      ⟨length_resetWorkers s.cfg s.draws, fun x => phase_of_mem_resetWorkers⟩, rfl, rfl⟩
    case matchKey => exact congrArg (BitVec.ofNat 32) (matchKey_zero j)
    case matchCount => exact congrArg (BitVec.ofNat 32) matchCount_zero

end Sys2Proof.Machine
end

section
/-! PROOFS. The core's work (30_encoding.md R114; 44_bruteforce.md R247): every move of the sequencer and the workers
uses up some of it, a busy core always has such a move, and the work ends in a commit. -/

namespace Sys2Proof.Machine

/-! ### The work of a SEARCH -/

/-- The moves that the workers of a SEARCH still make. -/
def searchWork (s : State) : Nat := (s.workers.map workerWork).sum

/-- The moves that the sequencer and the workers still make: in EXEC `commitBound`, in SEARCH_RUN the workers' and
the join. -/
def coreWork (s : State) : Nat :=
  match s.phase with
  | .idle => 0
  | .exec => commitBound s.cfg.nw
  | .searchRun => searchWork s + 1

theorem coreWork_of_idle {s : State} (h : s.phase = .idle) : coreWork s = 0 := by
  simp only [coreWork, h]

theorem coreWork_of_exec {s : State} (h : s.phase = .exec) : coreWork s = commitBound s.cfg.nw := by
  simp only [coreWork, h]

theorem coreWork_of_searchRun {s : State} (h : s.phase = .searchRun) : coreWork s = searchWork s + 1 := by
  simp only [coreWork, h]

theorem sum_map_set {α : Type} (f : α → Nat) {l : List α} {i : Nat} {x : α} (h : l[i]? = some x) (y : α) :
    ((l.set i y).map f).sum + f x = (l.map f).sum + f y := by
  induction l generalizing i with
  | nil => simp at h
  | cons z l ih =>
    cases i with
    | zero =>
      obtain rfl : z = x := by simpa using h
      simp only [List.set_cons_zero, List.map_cons, List.sum_cons]
      omega
    | succ i =>
      have hrest := ih (i := i) (by simpa using h)
      simp only [List.set_cons_succ, List.map_cons, List.sum_cons]
      omega

theorem sum_map_le_sum_range {α : Type} {f : α → Nat} {g : Nat → Nat} {l : List α}
    (h : ∀ i x, l[i]? = some x → f x ≤ g i) : (l.map f).sum ≤ ∑ i ∈ Finset.range l.length, g i := by
  induction l using List.reverseRecOn with
  | nil => simp
  | append_singleton l x ih =>
    have hinit := ih fun i y hy => h i y (by
      rwa [List.getElem?_append_left (List.getElem?_eq_some_iff.1 hy).1])
    have hlast := h l.length x (by simp)
    simp only [List.map_append, List.map_cons, List.map_nil, List.sum_append, List.sum_singleton, List.length_append,
      List.length_singleton, Finset.sum_range_succ]
    omega

theorem workerWork_le_of_workerOk {s : State} {w : Nat} {x : Worker} (h : workerOk s w x) :
    workerWork x ≤ (rangeLo (effWorkers s) (w + 1) - rangeLo (effWorkers s) w) + 2 := by
  unfold workerOk at h
  split at h
  · obtain ⟨hlo, hhi, hlow, -⟩ := h
    rw [rangeHi_eq] at hhi
    cases hp : x.phase <;> simp only [workerWork, hp] <;> omega
  · simp only [workerWork, h]
    omega

theorem rangeLo_monotone (n : Nat) : Monotone (rangeLo n) :=
  monotone_nat_of_le_succ fun w => rangeLo_le_rangeHi n w

/-- The workers' ranges are parts of the key space (R233), and each worker ends its range and merges once. -/
theorem searchWork_le {s : State} (hcount : s.workers.length = s.cfg.nw) (hok : SearchOk s) :
    searchWork s ≤ 1024 + 2 * s.cfg.nw := by
  have hsum := sum_map_le_sum_range (l := s.workers) fun w x hx => workerWork_le_of_workerOk (hok.1 w x hx)
  have hlast : rangeLo (effWorkers s) s.cfg.nw ≤ 1024 := Nat.min_le_left _ _
  calc searchWork s
      ≤ ∑ w ∈ Finset.range s.cfg.nw, ((rangeLo (effWorkers s) (w + 1) - rangeLo (effWorkers s) w) + 2) :=
        hcount ▸ hsum
    _ = (rangeLo (effWorkers s) s.cfg.nw - rangeLo (effWorkers s) 0) + s.cfg.nw * 2 := by
        rw [Finset.sum_add_distrib, Finset.sum_range_tsub (rangeLo_monotone _), Finset.sum_const, Finset.card_range,
          smul_eq_mul]
    _ ≤ 1024 + 2 * s.cfg.nw := by omega

theorem coreWork_le {s : State} (h : Inv s) : coreWork s ≤ commitBound s.cfg.nw := by
  cases hp : s.phase with
  | idle => rw [coreWork_of_idle hp]; exact Nat.zero_le _
  | exec => exact (coreWork_of_exec hp).le
  | searchRun =>
    obtain ⟨-, hok⟩ := h.searching hp
    have hle := searchWork_le h.workerCount hok
    rw [coreWork_of_searchRun hp, commitBound]
    omega

/-! ### Every core move uses up work -/

/-- A worker's move is one of the moves that `workerWork` counts. -/
theorem workerWork_of_workerNext {s : State} {x : Worker} {r : Worker × KeySet} (h : workerNext s x = some r) :
    workerWork r.1 + 1 = workerWork x := by
  unfold workerNext at h
  split at h
  · rename_i hp
    split at h
    · obtain rfl := Option.some.inj h
      simp only [workerWork, testStep_phase, testStep_hi, testStep_k, hp]
      omega
    · split at h
      · obtain rfl := Option.some.inj h
        simp only [workerWork, hp]
        omega
      · cases h
  · rename_i hp
    split at h
    · obtain rfl := Option.some.inj h
      simp only [workerWork, hp]
    · cases h
  · cases h
  · cases h

theorem searchWork_of_workerMove {s t : State} {w : Nat} (h : workerMove w s = some t) :
    searchWork t + 1 = searchWork s := by
  obtain ⟨x, r, hx, hr, rfl⟩ := workerMove_eq_some_iff.1 h
  have hsum := sum_map_set workerWork hx r.1
  have hwork := workerWork_of_workerNext hr
  simp only [searchWork, takeMove]
  omega

theorem coreWork_of_workerMove {s t : State} {w : Nat} (h : Inv s) (hmove : workerMove w s = some t) :
    coreWork t < coreWork s := by
  have hp := searchRun_of_workerMove h hmove
  have hframe := workerMove_frame hmove
  have hp' : t.phase = .searchRun := hframe ▸ hp
  have hwork := searchWork_of_workerMove hmove
  rw [coreWork_of_searchRun hp, coreWork_of_searchRun hp']
  omega

/-- The sequencer's move launches a SEARCH or commits. -/
theorem launch_or_commit_of_seqMove {s t : State} (hmove : seqMove s = some (.next t)) :
    (s.phase = .exec ∧ t = launch s) ∨
      (s.phase ≠ .idle ∧ t.phase = .idle ∧ t.status.busy = false ∧ t.status.done = true) := by
  obtain ⟨i, hp, -, hexec⟩ | ⟨why, hp, -, ht⟩ | ⟨hp, -, ht⟩ := seqMove_cases hmove
  · obtain ⟨e, -, rfl⟩ | ⟨b, -, -, rfl⟩ | ⟨f, -, -, rfl⟩ | ⟨-, -, rfl⟩ := exec_cases hexec.symm
    · exact .inr ⟨by simp [hp], rfl, rfl, rfl⟩
    · exact .inr ⟨by simp [hp], rfl, rfl, rfl⟩
    · exact .inr ⟨by simp [hp], rfl, rfl, rfl⟩
    · exact .inl ⟨hp, rfl⟩
  · obtain rfl := Host.Outcome.next.inj ht
    exact .inr ⟨by simp [hp], rfl, rfl, rfl⟩
  · obtain rfl := Host.Outcome.next.inj ht
    exact .inr ⟨by simp [hp], rfl, rfl, rfl⟩

theorem coreWork_pos {s : State} (h : s.phase ≠ .idle) : 0 < coreWork s := by
  cases hp : s.phase with
  | idle => exact absurd hp h
  | exec => rw [coreWork_of_exec hp, commitBound]; omega
  | searchRun => rw [coreWork_of_searchRun hp]; omega

theorem coreWork_of_seqMove {s t : State} (h : Inv s) (hmove : seqMove s = some (.next t)) :
    coreWork t < coreWork s := by
  obtain ⟨hp, rfl⟩ | ⟨hp, hidle, -, -⟩ := launch_or_commit_of_seqMove hmove
  · have hinv := inv_of_seqMove h hmove
    obtain ⟨-, hok⟩ := hinv.searching rfl
    have hle := searchWork_le hinv.workerCount hok
    rw [coreWork_of_exec hp, coreWork_of_searchRun rfl, commitBound]
    rw [launch_cfg] at hle
    omega
  · rw [coreWork_of_idle hidle]
    exact coreWork_pos hp

theorem coreWork_of_coreMove {a : Agent} {s t : State} (h : Inv s) (ha : a.isCore = true)
    (hmove : agentMove a s = some (.next t)) : coreWork t < coreWork s := by
  obtain ⟨rfl, -⟩ | ⟨-, hseq⟩ | ⟨w, -, hworker⟩ := agentMove_next hmove
  · cases ha
  · exact coreWork_of_seqMove h hseq
  · exact coreWork_of_workerMove h hworker

/-- A run of core moves is no longer than the work it uses up. -/
theorem length_le_coreWork {s t : State} {as : List Agent} (h : Inv s) (hcore : ∀ a ∈ as, a.isCore = true)
    (hrun : runAgents as s = some t) : as.length ≤ coreWork s := by
  induction as generalizing s with
  | nil => exact Nat.zero_le _
  | cons a as ih =>
    obtain ⟨ha, has⟩ := List.forall_mem_cons.1 hcore
    rw [runAgents] at hrun
    split at hrun
    · rename_i u hmove
      have hrest := ih (inv_of_agentMove h hmove) has hrun
      have hlt := coreWork_of_coreMove h ha hmove
      rw [List.length_cons]
      omega
    · cases hrun

/-- Settles O55: the work of a state of the invariant is within the bound. -/
theorem coreWorkIsBounded : Obligations.CoreWorkIsBounded := fun _ _ _ hinv hcore hrun =>
  (length_le_coreWork hinv hcore hrun).trans (coreWork_le hinv)

/-! ### A busy core has a move -/

/-- A launched worker that is not MERGED has a step: it is within its range, and LOCK is FREE. -/
theorem exists_workerMove {s : State} {w : Nat} {x : Worker} (hlock : s.lock = .free) (hx : s.workers[w]? = some x)
    (hok : workerOk s w x) (hw : w < effWorkers s) (hm : x.phase ≠ .merged) : ∃ t, workerMove w s = some t := by
  rw [workerOk, if_pos hw] at hok
  obtain ⟨-, -, -, hhigh, hidle, -, -⟩ := hok
  cases hp : x.phase with
  | idle => exact absurd hp hidle
  | run =>
    obtain hlt | heq := Nat.lt_or_eq_of_le hhigh
    · exact ⟨_, workerMove_test hx hp hlt⟩
    · exact ⟨_, workerMove_rangeEnd hx hp heq⟩
  | mergePending => exact ⟨_, workerMove_merge hx hp hlock⟩
  | merged => exact absurd hp hm

theorem exists_unmerged {s : State} (hcount : s.workers.length = s.cfg.nw) (h : ¬ allMerged s = true) :
    ∃ w x, w < effWorkers s ∧ s.workers[w]? = some x ∧ x.phase ≠ .merged := by
  rw [allMerged_iff] at h
  push Not at h
  obtain ⟨w, hw, hnot⟩ := h
  have hlt : w < s.workers.length := by
    have := effWorkers_le s
    omega
  exact ⟨w, s.workers[w], hw, List.getElem?_eq_getElem hlt, hnot _ (List.getElem?_eq_getElem hlt)⟩

theorem exists_seqMove_of_exec {s : State} (hp : s.phase = .exec) : ∃ t, seqMove s = some (.next t) := by
  cases hop : s.op with
  | cmd i =>
    obtain ⟨t, ht⟩ := exists_exec_next i s
    exact ⟨t, by rw [seqMove_of_cmd hp hop, ht]⟩
  | illegal why => exact ⟨_, seqMove_of_illegal hp hop⟩

/-- Settles O56: in EXEC the sequencer runs the command; in SEARCH_RUN it joins, or a launched worker is not MERGED. -/
theorem busyCoreIsNeverStuck : Obligations.BusyCoreIsNeverStuck := by
  intro s hinv hbusy
  cases hp : s.phase with
  | idle => exact absurd hp (hinv.busyIff.1 hbusy)
  | exec =>
    obtain ⟨t, ht⟩ := exists_seqMove_of_exec hp
    exact ⟨.seq, t, rfl, ht⟩
  | searchRun =>
    by_cases hm : allMerged s = true
    · exact ⟨.seq, join s, rfl, seqMove_of_allMerged hp hm⟩
    · obtain ⟨-, hworkers, -⟩ := hinv.searching hp
      obtain ⟨w, x, hw, hx, hnot⟩ := exists_unmerged hinv.workerCount hm
      obtain ⟨t, ht⟩ := exists_workerMove hinv.lockFree hx (hworkers w x hx) hw hnot
      exact ⟨.worker w, t, rfl, congrArg (Option.map Host.Outcome.next) ht⟩

/-! ### The commit -/

/-- A busy core whose HOST agent is at the end of its program. -/
structure RunningAlone (s : State) : Prop where
  inv : Inv s
  busy : s.status.busy = true
  hostDone : s.host.prog.length ≤ s.host.pc

theorem hostMove_none_of_done {s : State} (h : s.host.prog.length ≤ s.host.pc) : hostMove s = none := by
  simp only [hostMove, List.getElem?_eq_none h]

/-- A core move either keeps the command running or commits it. -/
theorem running_or_committed_of_coreMove {a : Agent} {s t : State} (h : RunningAlone s) (ha : a.isCore = true)
    (hmove : agentMove a s = some (.next t)) :
    RunningAlone t ∨ (t.status.busy = false ∧ t.status.done = true) := by
  have hinv := inv_of_agentMove h.inv hmove
  obtain ⟨rfl, -⟩ | ⟨-, hseq⟩ | ⟨w, -, hworker⟩ := agentMove_next hmove
  · cases ha
  · obtain ⟨-, rfl⟩ | ⟨-, -, hcommit⟩ := launch_or_commit_of_seqMove hseq
    · exact .inl ⟨hinv, h.busy, h.hostDone⟩
    · exact .inr hcommit
  · have hframe := workerMove_frame hworker
    exact .inl ⟨hinv, hframe ▸ h.busy, hframe ▸ h.hostDone⟩

/-- A step of a core that runs alone is a core move: the HOST agent has none, and the core has one. -/
theorem step_of_runningAlone {s : State} (h : RunningAlone s) :
    ∃ a t, a.isCore = true ∧ agentMove a s = some (.next t) ∧ step s = .next (regrant t) := by
  obtain ⟨-, hnone⟩ | ⟨a, o, hmove, hstep⟩ := stepIsOneAgentsMove s
  · obtain ⟨a, t, -, hmove⟩ := busyCoreIsNeverStuck s h.inv h.busy
    rw [hnone a] at hmove
    cases hmove
  · have ha : a.isCore = true := by
      cases a with
      | host =>
        rw [agentMove, hostMove_none_of_done h.hostDone] at hmove
        cases hmove
      | seq | worker _ => rfl
    obtain ⟨t, rfl⟩ := exists_next_of_coreMove ha hmove
    exact ⟨a, t, ha, hmove, hstep⟩

theorem coreWork_regrant (s : State) : coreWork (regrant s) = coreWork s := rfl

theorem runSteps_succ {s t : State} (h : step s = .next t) (n : Nat) : runSteps (n + 1) s = runSteps n t := by
  rw [runSteps, h]

/-- A core that runs alone commits before its work runs out, on every order of moves. -/
theorem runSteps_commits (work : Nat) {s : State} (hwork : coreWork s ≤ work) (h : RunningAlone s) :
    ∃ n ≤ work, ∃ t, runSteps n s = .next t ∧ t.status.busy = false ∧ t.status.done = true := by
  induction work generalizing s with
  | zero =>
    have hpos := coreWork_pos (h.inv.busyIff.1 h.busy)
    omega
  | succ work ih =>
    obtain ⟨a, t, ha, hmove, hstep⟩ := step_of_runningAlone h
    obtain hrun | hcommit := running_or_committed_of_coreMove h ha hmove
    · have hlt := coreWork_of_coreMove h.inv ha hmove
      obtain ⟨n, hn, u, hu, hcommit⟩ := ih (s := regrant t) (by rw [coreWork_regrant]; omega)
        ⟨inv_regrant hrun.inv, hrun.busy, hrun.hostDone⟩
      exact ⟨n + 1, by omega, u, (runSteps_succ hstep n).trans hu, hcommit⟩
    · exact ⟨1, by omega, regrant t, runSteps_succ hstep 0, hcommit⟩

/-- Settles O57: with the HOST agent at its end every step is a core move, and the work is within the bound. -/
theorem stepsReachTheCommit : Obligations.StepsReachTheCommit := fun _ hinv hbusy hdone =>
  runSteps_commits _ (coreWork_le hinv) ⟨hinv, hbusy, hdone⟩

end Sys2Proof.Machine
end
